-- ==== Sys2Proof/Word.lean ====
section
/-! DEFINITION. The machine's words and the fields of an instruction word (00_scope.md R5, R9, R10). -/

namespace Sys2Proof

/-- A 32-bit pattern: a memory word, the accumulator, an address (00_scope.md R5, R10). -/
abbrev Word := BitVec 32

/-- One byte of the I/O ports (10_state.md R34). -/
abbrev Byte := BitVec 8

/-- The 5-bit opcode field `w[31:27]` (30_encoding.md R80). -/
abbrev Opcode := BitVec 5

/-- The 27-bit operand field `w[26:0]`: an address or an I/O selector (30_encoding.md R80). -/
abbrev Operand := BitVec 27

/-- `sval(w)`: a word's value as a two's-complement integer (00_scope.md R10). -/
def sval (w : Word) : Int := w.toInt

/-- `word(n)`: the word whose two's-complement value is congruent to `n` modulo 2^32 (00_scope.md R10). -/
def word (n : Int) : Word := BitVec.ofInt 32 n

end Sys2Proof
end

