-- ==== Sys2Proof/Syntax.lean ====
section
/-! DEFINITION. The instruction set, whole: one constructor for each row of spec/opcode_table.json (30_encoding.md R84, R85). -/

namespace Sys2Proof

/-- The eleven operations of the opcode map. Every operand is the 27-bit field `opd`. -/
inductive Instr where
  /-- HLT, opcode 0. `opd` is ignored but kept, so that no bit of the word is lost (R106, R87; log 26). -/
  | hlt (opd : Operand)
  /-- ADD a, opcode 1 (41_arithmetic.md R120). -/
  | add (a : Operand)
  /-- SUB a, opcode 2 (41_arithmetic.md R121). -/
  | sub (a : Operand)
  /-- STA a, opcode 3 (42_load_store.md R130). -/
  | sta (a : Operand)
  /-- LDA a, opcode 5 (42_load_store.md R131). -/
  | lda (a : Operand)
  /-- BRA a, opcode 6 (43_branch.md R140). -/
  | bra (a : Operand)
  /-- BRZ a, opcode 7 (43_branch.md R141). -/
  | brz (a : Operand)
  /-- BRP a, opcode 8 (43_branch.md R142). -/
  | brp (a : Operand)
  /-- INP, opcode 9 with selector 1 (44_io.md R151). -/
  | inp
  /-- OUT, opcode 9 with selector 2 (44_io.md R152). -/
  | out
  /-- OTC, opcode 9 with selector 22 (44_io.md R153). -/
  | otc
  deriving DecidableEq, Repr

/-- A pair of the pre-encode layer: an opcode number and an operand, both as the loader writes them,
so either may be out of range (30_encoding.md R89). -/
structure RawPair where
  op  : Nat
  opd : Int
  deriving DecidableEq, Repr

end Sys2Proof
end

