-- ==== Sys2Proof/WellFormed.lean ====
section
/-! DEFINITION. What may be packed into a word (30_encoding.md R89; 92_eei_decisions.md D26): the only well-formedness
check of this instruction set. An `Instr` carries its operand's bound in its type (`Operand` is 27 bits), so the check
stands on the raw pairs, and an instruction is well-formed when its pair is. -/

namespace Sys2Proof

/-- The opcode number of an instruction (30_encoding.md R84). -/
def Instr.opcodeNumber : Instr → Nat
  | .hlt _ => 0
  | .add _ => 1
  | .sub _ => 2
  | .sta _ => 3
  | .lda _ => 5
  | .bra _ => 6
  | .brz _ => 7
  | .brp _ => 8
  | .inp => 9
  | .out => 9
  | .otc => 9

/-- The operand of an instruction, the I/O selectors included (30_encoding.md R84, R85). -/
def Instr.operandNumber : Instr → Nat
  | .hlt opd => opd.toNat
  | .add a => a.toNat
  | .sub a => a.toNat
  | .sta a => a.toNat
  | .lda a => a.toNat
  | .bra a => a.toNat
  | .brz a => a.toNat
  | .brp a => a.toNat
  | .inp => 1
  | .out => 2
  | .otc => 22

/-- The pair `(opcode, operand)` the loader would write for an instruction (30_encoding.md R89, R91). -/
def Instr.toPair (i : Instr) : RawPair :=
  { op := i.opcodeNumber, opd := (i.operandNumber : Int) }

/-- The pair holds an opcode number of 5 bits. -/
def RawPair.opcodeInRange (p : RawPair) : Bool := p.op ≤ 31

/-- The operand is a signed word for a data word (opcode 0), a 27-bit address or selector otherwise (R89). -/
def RawPair.operandInRange (p : RawPair) : Bool :=
  if p.op = 0 then decide (-2 ^ 31 ≤ p.opd ∧ p.opd ≤ 2 ^ 31 - 1)
  else decide (0 ≤ p.opd ∧ p.opd < 2 ^ 27)

/-- The pairs for which `pack` is defined (30_encoding.md R89). -/
def RawPair.wellFormed (p : RawPair) : Bool := p.opcodeInRange && p.operandInRange

/-- An instruction is well-formed when its pair is: always so, by the types of its operands. -/
def Instr.wellFormed (i : Instr) : Bool := i.toPair.wellFormed

end Sys2Proof
end

