-- ==== Sys2Proof/Decode.lean ====
section
/-! DEFINITION. The decoder, total on every 32-bit word (30_encoding.md R80 to R88), and after it the encoder and the
loader's packing (R84, R85, R89), written from the same tables. -/

namespace Sys2Proof

/-- What a word decodes to: exactly one of an operation, an INVALID_OPCODE fault or an INVALID_IO_SELECTOR fault
(30_encoding.md R88). Decoding itself never faults: dispatch raises the condition (40_cycle_and_halt.md R102). -/
inductive Decoded where
  | instr (i : Instr)
  | invalidOpcode (opc : Opcode)
  | invalidSelector (sel : Operand)
  deriving DecidableEq, Repr

/-- `opc <- w[31:27]`, unsigned (30_encoding.md R81). -/
def opcodeField (w : Word) : Opcode := w.extractLsb' 27 5

/-- The 27 bits `w[26:0]` (30_encoding.md R81). -/
def operandField (w : Word) : Operand := w.extractLsb' 0 27

/-- The operation an IO word's selector names: the whole 27-bit operand is compared with 1, 2 and 22
(30_encoding.md R85; 90_conflicts.md C5; log 27). -/
def decodeSelector (sel : Operand) : Decoded :=
  match sel.toNat with
  | 1 => .instr .inp
  | 2 => .instr .out
  | 22 => .instr .otc
  | _ => .invalidSelector sel

/-- The opcode map (30_encoding.md R84). Opcode 4 and opcodes 10 to 31 are invalid (R86). -/
def decodeFields (opc : Opcode) (opd : Operand) : Decoded :=
  match opc.toNat with
  | 0 => .instr (.hlt opd)
  | 1 => .instr (.add opd)
  | 2 => .instr (.sub opd)
  | 3 => .instr (.sta opd)
  | 5 => .instr (.lda opd)
  | 6 => .instr (.bra opd)
  | 7 => .instr (.brz opd)
  | 8 => .instr (.brp opd)
  | 9 => decodeSelector opd
  | _ => .invalidOpcode opc

/-- Decoding a fetched word (30_encoding.md R81). -/
def decode (w : Word) : Decoded := decodeFields (opcodeField w) (operandField w)

/-- `opc ‖ opd`: the word with these two fields (30_encoding.md R80). -/
def joinFields (opc : Opcode) (opd : Operand) : Word := opc ++ opd

/-- The word of an instruction (30_encoding.md R84, R85). -/
def encode : Instr → Word
  | .hlt opd => joinFields 0 opd
  | .add a => joinFields 1 a
  | .sub a => joinFields 2 a
  | .sta a => joinFields 3 a
  | .lda a => joinFields 5 a
  | .bra a => joinFields 6 a
  | .brz a => joinFields 7 a
  | .brp a => joinFields 8 a
  | .inp => joinFields 9 1
  | .out => joinFields 9 2
  | .otc => joinFields 9 22

/-- `pack(op, a)` of the loader's convention: `word(op · 2^27 + a)`, and the raw data word for opcode 0. Pairs out of
range are refused (30_encoding.md R89; 92_eei_decisions.md D26). -/
def pack (p : RawPair) : Option Word :=
  if p.wellFormed then some (word ((p.op : Int) * 2 ^ 27 + p.opd)) else none

/-- The word whose `nbits` low bits are those of `w`, the bits above being zero. There are no bytes to lay out: an
instruction is one whole word (30_encoding.md R80, R83; 20_memory.md R59). -/
def tableWord (nbits w : Nat) : Word := BitVec.ofNat 32 (w % 2 ^ nbits)

/-- The instruction the decoder reads from a word of the opcode table, none where the word is invalid. -/
def decodeTableWord (nbits w : Nat) : Option Instr :=
  match decode (tableWord nbits w) with
  | .instr i => some i
  | .invalidOpcode _ => none
  | .invalidSelector _ => none

end Sys2Proof
end

