-- ==== Sys2Proof/Config.lean ====
section
/-! DEFINITION. The parameters of the core (00_scope.md R6): fixed for a run, sampled at reset from the configuration
port (10_state.md R34). A State holds them as plain data (log 2), so that a claim is about every value of them. -/

namespace Sys2Proof

/-- The causes of a fatal condition (60_exceptions.md R203). -/
inductive Cause where
  | rangeRead
  | rangeWrite
  | invalidOpcode
  | invalidIoSelector
  | inputEof
  deriving DecidableEq, Repr

/-- The two recoverable input diagnostics (44_io.md R177). -/
inductive DiagKind where
  /-- `DIAG_NOT_INTEGER`, the source's "must be an integer". -/
  | notInteger
  /-- `DIAG_MALFORMED`, the source's "integer too large / malformed". -/
  | malformed
  deriving DecidableEq, Repr

/-- The OPEN parameters of 00_scope.md R6 that are plain data. `memLen` carries its bound `MEM_LEN` ≤ 2^27 in its type:
a longer memory is not representable (92_eei_decisions.md D3; log 4). -/
structure Config where
  /-- `MEM_LEN`, the number of memory words. -/
  memLen : Fin (2 ^ 27 + 1)
  /-- `PROMPT_ENABLED`, the source's `promptEnabled` (10_state.md R27). -/
  promptEnabled : Bool
  /-- `PROMPT_TEXT`. -/
  promptText : List Byte
  /-- `BLANK_LINE_SKIPPED` (92_eei_decisions.md D16). -/
  blankLineSkipped : Bool
  /-- `ACCEPT_PLUS` (92_eei_decisions.md D17). -/
  acceptPlus : Bool
  /-- `DIAG_NOT_INTEGER` (92_eei_decisions.md D22). -/
  diagNotInteger : List Byte
  /-- `DIAG_MALFORMED` (92_eei_decisions.md D22). -/
  diagMalformed : List Byte
  deriving DecidableEq, Repr

/-- The parameter values of `State.reset`, DESIGN CHOICE (log 3): the largest memory, and the parameters of
95_test_vectors.md's "Unless a vector says otherwise" with empty texts. No claim about a parameter rests on them. -/
def Config.default : Config where
  memLen := 134217728
  promptEnabled := false
  promptText := []
  blankLineSkipped := false
  acceptPlus := true
  diagNotInteger := []
  diagMalformed := []

/-- `DIAG_FATAL(cause, info)`, the text of a fatal diagnostic. OPEN (92_eei_decisions.md D22): a free value, an
uninterpreted function of the cause and the info, so that a claim about `diag` holds for every text (log 10). -/
opaque Config.diagFatal : Cause → Option Nat → List Byte

end Sys2Proof
end

