-- ==== Sys2Proof/Machine/State.lean ====
section
/-! DEFINITION. The architectural state (10_state.md R20), the reasons a step can stop, and the state after reset
(70_reset_and_hazards.md R230). -/

namespace Sys2Proof.Machine

/-- One listed word of memory: a word address and the word there. Memory is addressed in whole words and has no byte
order, so the cells are words (20_memory.md R50, R55, R59; log 1). -/
abbrev MemCell := Nat × Word

/-- Memory in its one canonical form, see `Memory.wf`. -/
abbrev Memory := List MemCell

/-- What an address that is not listed reads as: the zero word of reset's padding (20_memory.md R53). -/
def Memory.unlisted : Word := 0

/-- The canonical form: addresses strictly rising, and no entry equal to what an unlisted address reads as. -/
abbrev Memory.wf (m : Memory) : Prop :=
  m.Pairwise (fun c d => c.1 < d.1) ∧ ∀ c ∈ m, c.2 ≠ Memory.unlisted

/-- RUNNING, HALTED or FAULTED (10_state.md R24). -/
inductive RunState where
  | running
  | halted
  | faulted
  deriving DecidableEq, Repr

/-- Where in the step a fatal condition was raised (60_exceptions.md R202). -/
inductive Stage where
  | fetch
  | execute
  deriving DecidableEq, Repr

/-- The fault record (60_exceptions.md R202, R203). -/
structure FaultRecord where
  cause : Cause
  /-- The out-of-range index, the opcode or the selector; none for INPUT_EOF. -/
  info : Option Nat
  /-- The address of the faulting instruction; for a fetch fault the out-of-range address itself. -/
  ip : Word
  stage : Stage
  /-- The fetched word at stage EXECUTE, none for a fetch fault. -/
  word : Option Word
  deriving DecidableEq, Repr

/-- The consuming states of the input protocol (44_io.md R179). PROMPT consumes no byte and is passed through at once,
so it is no state a reader can wait in. `neg` and `mag` are the sign and the unbounded magnitude read so far (R170). -/
inductive Reader where
  | lead
  | sign (neg : Bool)
  | digits (neg : Bool) (mag : Nat)
  | trail (neg : Bool) (mag : Nat)
  /-- DISCARD_NI or DISCARD_MF, by the diagnostic due at the end of the line. -/
  | discard (d : DiagKind)
  deriving DecidableEq, Repr

/-- The input port (10_state.md R34, 44_io.md R171): the bytes the host has supplied so far, from the first one on, and
whether it has given the end-of-input indication. A finite `INPUT` is one that has ended; an infinite or interactive one
is one that has not, at every moment (log 8). -/
structure InputPort where
  bytes : List Byte
  ended : Bool
  deriving DecidableEq, Repr

/-- The state of the core (10_state.md R20), with its parameters and input port (00_scope.md R6; log 2) and the
reader of an INP that waits on the host (44_io.md R171, R179; log 9). -/
structure State where
  /-- The accumulator (R21). -/
  acc : Word
  /-- The instruction pointer, also `pc` (R22). -/
  ip : Word
  /-- The run state (R24). -/
  run : RunState
  /-- The fault record, none while `run` is not FAULTED (R25). -/
  fault : Option FaultRecord
  /-- `Mem` (R28). -/
  mem : Memory
  /-- The line mode, the source's `isLineMode` (R26). -/
  lineMode : Bool
  /-- Bytes of the input consumed so far (R29). -/
  inPos : Nat
  /-- Bytes emitted on the output port (R30). -/
  out : List Byte
  /-- Bytes emitted on the diagnostic port (R31). -/
  diag : List Byte
  /-- Where an INP that waits on the host stands; none when no INP is in progress (log 9). -/
  reader : Option Reader
  /-- The input port. -/
  input : InputPort
  /-- The parameters. -/
  cfg : Config
  deriving DecidableEq, Repr

/-- The reasons no step is enabled. -/
inductive Fault where
  /-- Raised by `step` in a state with `run` = HALTED: no step is enabled (40_cycle_and_halt.md R104; log 7). Safe. -/
  | halted
  /-- Raised by `step` in a state with `run` = FAULTED: no step is enabled (40_cycle_and_halt.md R104; log 7). Safe. -/
  | faulted
  deriving DecidableEq, Repr

/-- The reasons an instruction has no meaning. -/
inductive Refusal where
  /-- Raised by `exec` for an instruction that has no meaning yet; no arm raises it. Safe. -/
  | notModelled (mnemonic : String)
  deriving DecidableEq, Repr

/-- What a step or a meaning answers. -/
abbrev Result := Host.Outcome State Fault Refusal

/-- The machine right after reset (70_reset_and_hazards.md R230), with the parameters of `Config.default`, an empty
image and nothing supplied on the input port (DESIGN CHOICE, log 3). `State.resetWith` is R230 for every parameter. -/
def State.reset : State where
  acc := 0
  ip := 0
  run := .running
  fault := none
  mem := []
  lineMode := false
  inPos := 0
  out := []
  diag := []
  reader := none
  input := { bytes := [], ended := false }
  cfg := Config.default

end Sys2Proof.Machine
end

