-- ==== Sys2Proof/Machine/Ops.lean ====
section
/-! DEFINITION. The primitives every rule is written in (00_scope.md R11): memory access (20_memory.md R51, R52), the
ports (10_state.md R29 to R31), advancing `ip` (40_cycle_and_halt.md R105), raising a fatal condition
(60_exceptions.md R202), reset (70_reset_and_hazards.md R230) and what the host may do (10_state.md R34). There is no
return from a fatal condition (60_exceptions.md R208), so no operation stands beside `raiseFatal`. -/

namespace Sys2Proof.Machine

/-! ### The memory array -/

/-- A canonical memory with one more cell in front: a word equal to what is read unlisted is not listed. -/
def Memory.consCell (a : Nat) (v : Word) (m : Memory) : Memory :=
  if v = Memory.unlisted then m else (a, v) :: m

/-- The word at an index. -/
def Memory.read : Memory → Nat → Word
  | [], _ => Memory.unlisted
  | (b, w) :: m, a => if a = b then w else Memory.read m a

/-- Overwrites the word at an index and keeps the canonical form. -/
def Memory.write : Memory → Nat → Word → Memory
  | [], a, v => Memory.consCell a v []
  | (b, w) :: m, a, v =>
    if a < b then Memory.consCell a v ((b, w) :: m)
    else if a = b then Memory.consCell a v m
    else (b, w) :: Memory.write m a v

/-- The words of a list, placed from an index on. -/
def Memory.place : Nat → List Word → Memory
  | _, [] => []
  | a, w :: ws => Memory.consCell a w (Memory.place (a + 1) ws)

/-- Reset contents (20_memory.md R53): the image in the low indices, cut off at `len` words; the padding is unlisted. -/
def Memory.ofImage (image : List Word) (len : Nat) : Memory := Memory.place 0 (image.take len)

/-! ### Bounds-checked access -/

/-- `MemRead(addr, 1)`; none where it raises `Fatal(RANGE_READ, addr)` (20_memory.md R51). -/
def memRead (addr : Word) (s : State) : Option Word :=
  if addr.toNat < s.cfg.memLen.val then some (s.mem.read addr.toNat) else none

/-- `MemWrite(addr, 1, v)`; none where it raises `Fatal(RANGE_WRITE, addr)` (20_memory.md R52). -/
def memWrite (addr v : Word) (s : State) : Option State :=
  if addr.toNat < s.cfg.memLen.val then some { s with mem := s.mem.write addr.toNat v } else none

/-- The fetch (40_cycle_and_halt.md R101): the word `Mem` holds at `ip` at this moment. -/
def fetch (s : State) : Option Word := memRead s.ip s

/-! ### Registers and ports -/

/-- `acc <- v` (10_state.md R21). -/
def setAcc (v : Word) (s : State) : State := { s with acc := v }

/-- `pc <- target` (10_state.md R22). -/
def jump (target : Word) (s : State) : State := { s with ip := target }

/-- `ip <- ip + 1` (40_cycle_and_halt.md R105). -/
def advance (s : State) : State := { s with ip := s.ip + 1 }

/-- `OutEmit(b)` (10_state.md R30). -/
def outEmit (b : List Byte) (s : State) : State := { s with out := s.out ++ b }

/-- `DiagEmit(b)` (10_state.md R31). -/
def diagEmit (b : List Byte) (s : State) : State := { s with diag := s.diag ++ b }

/-- `lineMode <- b`. -/
def setLineMode (b : Bool) (s : State) : State := { s with lineMode := b }

/-- The bytes the host has supplied and the core has not consumed. -/
def State.inputLeft (s : State) : List Byte := s.input.bytes.drop s.inPos

/-- `inPos <- inPos + 1`: the consuming half of `InNext` (44_io.md R171). -/
def takeByte (s : State) : State := { s with inPos := s.inPos + 1 }

/-! ### Fatal conditions -/

/-- Where a fatal condition is raised: by the fetch, or while a fetched word executes. -/
inductive Origin where
  | fetch
  | execute (w : Word)
  deriving DecidableEq, Repr

/-- The record's `stage` (60_exceptions.md R202). -/
def Origin.stage : Origin → Stage
  | .fetch => .fetch
  | .execute _ => .execute

/-- The record's `word` (60_exceptions.md R202). -/
def Origin.word : Origin → Option Word
  | .fetch => none
  | .execute w => some w

/-- The numeric cause codes (60_exceptions.md R203). -/
def causeCode : Cause → Nat
  | .rangeRead => 1
  | .rangeWrite => 2
  | .invalidOpcode => 3
  | .invalidIoSelector => 4
  | .inputEof => 5

/-- `raise Fatal(cause, info)`: the one way into FAULTED (60_exceptions.md R202; log 6). Nothing but `fault`, `diag`
and `run` changes (R204), and `ip` keeps the faulting instruction's address (40_cycle_and_halt.md R105). -/
def raiseFatal (cause : Cause) (info : Option Nat) (origin : Origin) (s : State) : State :=
  { s with
    fault := some { cause := cause, info := info, ip := s.ip, stage := origin.stage, word := origin.word }
    diag := s.diag ++ Config.diagFatal cause info
    run := .faulted }

/-- A fetch at `ip` ≥ `MEM_LEN` (40_cycle_and_halt.md R101). -/
def raiseFetchRange (s : State) : State :=
  raiseFatal .rangeRead (some s.ip.toNat) .fetch s

/-- Dispatch of an opcode that is 4 or 10 to 31 (40_cycle_and_halt.md R107). -/
def raiseInvalidOpcode (opc : Opcode) (w : Word) (s : State) : State :=
  raiseFatal .invalidOpcode (some opc.toNat) (.execute w) s

/-- An IO word whose selector is none of 1, 2 and 22 (44_io.md R150). -/
def raiseInvalidSelector (sel : Operand) (w : Word) (s : State) : State :=
  raiseFatal .invalidIoSelector (some sel.toNat) (.execute w) s

/-! ### Reset and the host -/

/-- `Reset(MEM_LEN, IMAGE, params)` (70_reset_and_hazards.md R230) for every value of the parameters, with what the
host has put on the input port by then. This is how a program comes to run (70_reset_and_hazards.md R232; log 12). -/
def State.resetWith (cfg : Config) (image : List Word) (input : InputPort) : State :=
  { State.reset with mem := Memory.ofImage image cfg.memLen.val, input := input, cfg := cfg }

/-- The host supplies further input bytes; after end-of-input it can supply none (10_state.md R34; log 28). -/
def State.hostSupply (bs : List Byte) (s : State) : State :=
  if s.input.ended then s else { s with input := { s.input with bytes := s.input.bytes ++ bs } }

/-- The host gives the end-of-input indication (10_state.md R34, 44_io.md R171; log 28). -/
def State.hostEndInput (s : State) : State :=
  { s with input := { s.input with ended := true } }

/-- The state with `w` stored where the next step fetches, ready to take that step: RUNNING and with no INP in
progress. Where `ip` names no word, `ip` becomes 0, with a memory of at least one word (log 12). -/
def placeInstruction (w : Word) (s : State) : State :=
  if s.ip.toNat < s.cfg.memLen.val then
    { s with mem := s.mem.write s.ip.toNat w, run := .running, fault := none, reader := none }
  else
    { s with
      ip := 0, mem := s.mem.write 0 w, run := .running, fault := none, reader := none
      cfg := { s.cfg with memLen := max 1 s.cfg.memLen } }

end Sys2Proof.Machine
end

