-- ==== Sys2Proof/Machine/Operands.lean ====
section
/-! DEFINITION. The one operand form: `opd` as a direct word address, for a data access or a branch
(30_encoding.md R81, R82; 42_load_store.md; 43_branch.md). -/

namespace Sys2Proof.Machine

/-- `EA = opd = zext_32(w[26:0])`: never sign-extended, scaled or shifted (30_encoding.md R81; 42_load_store.md). -/
def effectiveAddress (a : Operand) : Word := a.setWidth 32

/-- `target = opd`, absolute and unchecked (43_branch.md). -/
def branchTarget (a : Operand) : Word := a.setWidth 32

/-- `v <- MemRead(opd, 1)` and then the rest of the instruction `i`, which ends in `ip <- ip + 1`; the read raises
`Fatal(RANGE_READ, opd)` where `opd` ≥ `MEM_LEN` (20_memory.md R51). The record's `word` is the fetched word, which
is `encode i` (log 11). -/
def readOperand (i : Instr) (a : Operand) (use : Word → State → State) (s : State) : Result :=
  match memRead (effectiveAddress a) s with
  | some v => .next (advance (use v s))
  | none => .next (raiseFatal .rangeRead (some a.toNat) (.execute (encode i)) s)

/-- `MemWrite(opd, 1, v)` and then `ip <- ip + 1`; the write raises `Fatal(RANGE_WRITE, opd)` where `opd` ≥ `MEM_LEN`
(20_memory.md R52). -/
def writeOperand (i : Instr) (a : Operand) (v : Word) (s : State) : Result :=
  match memWrite (effectiveAddress a) v s with
  | some t => .next (advance t)
  | none => .next (raiseFatal .rangeWrite (some a.toNat) (.execute (encode i)) s)

end Sys2Proof.Machine
end

