-- ==== Sys2Proof/Machine/Arithmetic.lean ====
section
/-! DEFINITION. ADD and SUB (41_arithmetic.md R120 to R122). -/

namespace Sys2Proof.Machine

/-- `a +_32 b = word(sval(a) + sval(b))` (00_scope.md R10; 41_arithmetic.md R122). -/
def add32 (a b : Word) : Word := word (sval a + sval b)

/-- `a -_32 b = word(sval(a) - sval(b))` (00_scope.md R10; 41_arithmetic.md R122). -/
def sub32 (a b : Word) : Word := word (sval a - sval b)

/-- ADD a (R120). -/
def execAdd (a : Operand) (s : State) : Result :=
  readOperand (.add a) a (fun v t => setAcc (add32 t.acc v) t) s

/-- SUB a (R121). -/
def execSub (a : Operand) (s : State) : Result :=
  readOperand (.sub a) a (fun v t => setAcc (sub32 t.acc v) t) s

end Sys2Proof.Machine
end

