-- ==== Sys2Proof/Machine/Flags.lean ====
section
/-! DEFINITION. The core has no condition codes (10_state.md R23): the branches test the accumulator directly
(43_branch.md R141, R142). The two things the spec calls flags are the halted flag (R24) and the line mode (R163). -/

namespace Sys2Proof.Machine

/-- `sval(acc) = 0`, the condition of BRZ (43_branch.md R141). -/
def isZero (v : Word) : Bool := sval v = 0

/-- `sval(acc) ≥ 0`, the condition of BRP (43_branch.md R142). -/
def isNonNegative (v : Word) : Bool := 0 ≤ sval v

/-- The source's halted flag, `run` = HALTED (10_state.md R24). -/
def State.halted (s : State) : Bool := s.run = .halted

/-- LF, the line terminator: 0x0A (00_scope.md R13; log 13). -/
def charLF : Byte := 0x0A

/-- The line mode after the byte `b` was emitted by `writeChar`: `b ≠ LF` (44_io.md R163). -/
def lineModeAfter (b : Byte) : Bool := b ≠ charLF

end Sys2Proof.Machine
end

