-- ==== Sys2Proof/Machine/Branch.lean ====
section
/-! DEFINITION. BRA, BRZ and BRP (43_branch.md R140 to R143). -/

namespace Sys2Proof.Machine

/-- A branch: `pc <- opd` where it is taken, `ip <- ip + 1` where it is not (R143). -/
def branchIf (taken : Bool) (a : Operand) (s : State) : Result :=
  if taken then .next (jump (branchTarget a) s) else .next (advance s)

/-- BRA a (R140). -/
def execBra (a : Operand) (s : State) : Result := branchIf true a s

/-- BRZ a (R141). -/
def execBrz (a : Operand) (s : State) : Result := branchIf (isZero s.acc) a s

/-- BRP a (R142). -/
def execBrp (a : Operand) (s : State) : Result := branchIf (isNonNegative s.acc) a s

end Sys2Proof.Machine
end

