-- ==== Sys2Proof/Machine/Halt.lean ====
section
/-! DEFINITION. HLT (40_cycle_and_halt.md R106). -/

namespace Sys2Proof.Machine

/-- HLT: `run <- HALTED`, whatever the operand. Nothing else changes, and `ip` stays (R106; log 21). -/
def execHlt (_opd : Operand) (s : State) : Result := .next { s with run := .halted }

end Sys2Proof.Machine
end

