-- ==== Sys2Proof/Machine/Channel.lean ====
section
/-! DEFINITION. The I/O channel (44_io.md): decimal text, the line-output state machine (R160 to R165) and the
numeric-input protocol as the byte-level state machine of R179, over the input port of R171. -/

namespace Sys2Proof.Machine

/-! ### Characters (00_scope.md R13; log 13) -/

def charSP : Byte := 0x20
def charTAB : Byte := 0x09
def charMinus : Byte := 0x2D
def charPlus : Byte := 0x2B

/-- SP or TAB, and nothing else (44_io.md R172; log 16). -/
def isBlank (c : Byte) : Bool := c = charSP || c = charTAB

/-- `'0'` to `'9'`. -/
def isDigit (c : Byte) : Bool := 0x30 ≤ c.toNat && c.toNat ≤ 0x39

/-- `c - '0'`. -/
def digitValue (c : Byte) : Nat := c.toNat - 0x30

/-- The character of a decimal digit. -/
def digitChar (d : Nat) : Byte := BitVec.ofNat 8 (0x30 + d)

/-- The sign characters of a token: `'-'`, and `'+'` where `ACCEPT_PLUS` (44_io.md R173). -/
def isSign (cfg : Config) (c : Byte) : Bool := c = charMinus || (cfg.acceptPlus && c = charPlus)

/-- What is skipped before a token: blanks, and LF where `BLANK_LINE_SKIPPED` (44_io.md R170, R172). -/
def isSkipped (cfg : Config) (c : Byte) : Bool := isBlank c || (cfg.blankLineSkipped && c = charLF)

/-! ### Decimal text -/

/-- The decimal digits of a natural number, by at most `fuel` + 1 digits; `n` itself is always fuel enough. -/
def natDigits : Nat → Nat → List Byte
  | 0, n => [digitChar n]
  | fuel + 1, n => if n < 10 then [digitChar n] else natDigits fuel (n / 10) ++ [digitChar (n % 10)]

/-- `dec(n)`: the decimal text of a signed integer (00_scope.md R14; log 14). -/
def dec (n : Int) : List Byte :=
  if n < 0 then charMinus :: natDigits n.natAbs n.natAbs else natDigits n.natAbs n.natAbs

/-! ### The line-output state machine -/

/-- `writeNum(v)`: the digits, and a line terminator out of line mode; the line mode is unchanged (44_io.md R161;
90_conflicts.md C6, C7). -/
def writeNum (v : Word) (s : State) : State :=
  outEmit (dec (sval v) ++ if s.lineMode then [] else [charLF]) s

/-- `v[7:0]`, the byte `writeChar` emits (44_io.md R163; log 15). -/
def lowByte (v : Word) : Byte := v.extractLsb' 0 8

/-- `writeChar(v)`: one byte, and the only write of the line mode (44_io.md R163, R165). -/
def writeChar (v : Word) (s : State) : State :=
  setLineMode (lineModeAfter (lowByte v)) (outEmit [lowByte v] s)

/-! ### The numeric-input protocol -/

/-- What one byte makes the protocol do (44_io.md R179): go on, return a value, or fail the attempt. -/
inductive ReaderMove where
  | goto (r : Reader)
  | accept (n : Int)
  | reject (d : DiagKind)
  deriving DecidableEq, Repr

/-- `n = (neg ? -mag : mag)` (44_io.md R170). -/
def tokenValue (neg : Bool) (mag : Nat) : Int := if neg then -(mag : Int) else (mag : Int)

/-- `-2^31 ≤ n ≤ 2^31 - 1` (44_io.md R174). -/
def inWordRange (n : Int) : Bool := -2 ^ 31 ≤ n && n ≤ 2 ^ 31 - 1

/-- A byte in a line that is to be discarded: LF ends the line and the attempt (44_io.md R175, R177). -/
def discardByte (d : DiagKind) (c : Byte) : ReaderMove :=
  if c = charLF then .reject d else .goto (.discard d)

/-- A non-digit byte after the digits of a token, or any byte after its trailing blanks (44_io.md R174, R176, R179). -/
def endOfToken (neg : Bool) (mag : Nat) (c : Byte) : ReaderMove :=
  if isBlank c then .goto (.trail neg mag)
  else if c = charLF && inWordRange (tokenValue neg mag) then .accept (tokenValue neg mag)
  else discardByte .malformed c

/-- The transition table of 44_io.md R179. -/
def Reader.onByte (cfg : Config) : Reader → Byte → ReaderMove
  | .lead, c =>
    if isSkipped cfg c then .goto .lead
    else if isSign cfg c then .goto (.sign (c = charMinus))
    else if isDigit c then .goto (.digits false (digitValue c))
    else discardByte .notInteger c
  | .sign neg, c =>
    if isDigit c then .goto (.digits neg (digitValue c)) else discardByte .notInteger c
  | .digits neg mag, c =>
    if isDigit c then .goto (.digits neg (10 * mag + digitValue c)) else endOfToken neg mag c
  | .trail neg mag, c => endOfToken neg mag c
  | .discard d, c => discardByte d c

/-- The text of a recoverable diagnostic (44_io.md R177). -/
def diagText (cfg : Config) : DiagKind → List Byte
  | .notInteger => cfg.diagNotInteger
  | .malformed => cfg.diagMalformed

/-- The prompt of one attempt: `PROMPT_TEXT` where `PROMPT_ENABLED`, nothing otherwise (44_io.md R178). -/
def promptOf (cfg : Config) : List Byte := if cfg.promptEnabled then cfg.promptText else []

/-- PROMPT of 44_io.md R179: what every attempt starts with (R178; 90_conflicts.md C2; log 19). -/
def startAttempt (s : State) : State := outEmit (promptOf s.cfg) s

/-- The word of INP, for the record of an INPUT_EOF. -/
def inpWord : Word := encode .inp

/-- `InNext` where no supplied byte is left (44_io.md R171): end-of-input is fatal; otherwise the INP waits, with its
protocol state kept, and the next step goes on from there (log 9). -/
def inputExhausted (r : Reader) (s : State) : Result :=
  if s.input.ended then .next (raiseFatal .inputEof none (.execute inpWord) s)
  else .next { s with reader := some r }

/-- The protocol run over the supplied bytes that are left, one transition of R179 a byte. On success the accumulator
and `ip` are written (R151); a failed attempt emits its diagnostic and starts the next one (R177). -/
def readFrom : List Byte → Reader → State → Result
  | [], r, s => inputExhausted r s
  | c :: cs, r, s =>
    match r.onByte s.cfg c with
    | .goto r' => readFrom cs r' (takeByte s)
    | .accept n => .next (advance (setAcc (word n) (takeByte s)))
    | .reject d => readFrom cs .lead (startAttempt (diagEmit (diagText s.cfg d) (takeByte s)))

/-- `readNum()` from its first attempt (44_io.md R170). -/
def startReading (s : State) : Result := readFrom s.inputLeft .lead (startAttempt s)

/-- An INP that waited on the host goes on with the bytes supplied since (44_io.md R171; 60_exceptions.md R215; log 9). -/
def resumeReading (r : Reader) (s : State) : Result := readFrom s.inputLeft r { s with reader := none }

end Sys2Proof.Machine
end

