-- ==== Sys2Proof/Machine/InputOutput.lean ====
section
/-! DEFINITION. INP, OUT and OTC, the three operations of the IO opcode (44_io.md R150 to R153). -/

namespace Sys2Proof.Machine

/-- INP: `acc <- readNum()`, then `ip <- ip + 1` (R151, R170). -/
def execInp (s : State) : Result := startReading s

/-- OUT: `writeNum(acc)`, then `ip <- ip + 1` (R152). -/
def execOut (s : State) : Result := .next (advance (writeNum s.acc s))

/-- OTC: `writeChar(acc)`, then `ip <- ip + 1` (R153). -/
def execOtc (s : State) : Result := .next (advance (writeChar s.acc s))

end Sys2Proof.Machine
end

