-- ==== Sys2Proof/Machine/LoadStore.lean ====
section
/-! DEFINITION. STA and LDA (42_load_store.md R130, R131). -/

namespace Sys2Proof.Machine

/-- STA a (R130). -/
def execSta (a : Operand) (s : State) : Result := writeOperand (.sta a) a s.acc s

/-- LDA a (R131). -/
def execLda (a : Operand) (s : State) : Result := readOperand (.lda a) a setAcc s

end Sys2Proof.Machine
end

