-- ==== Sys2Proof/Machine/Step.lean ====
section
/-! DEFINITION. The step (40_cycle_and_halt.md R100): fetch, decode and execute one instruction, while RUNNING. -/

namespace Sys2Proof.Machine

/-- One step (R100). In HALTED and FAULTED no step is enabled (R104; log 7). An INP that waits on the host is gone on
with, not fetched again (00_scope.md R7; log 9). A fetch out of range (R101), an invalid opcode (R107) and an invalid
selector (44_io.md R150) raise their fatal condition. -/
def step (s : State) : Host.Outcome State Fault Refusal :=
  match s.run with
  | .halted => .fault .halted
  | .faulted => .fault .faulted
  | .running =>
    match s.reader with
    | some r => resumeReading r s
    | none =>
      match fetch s with
      | none => .next (raiseFetchRange s)
      | some w =>
        match decode w with
        | .instr i => exec i s
        | .invalidOpcode opc => .next (raiseInvalidOpcode opc w s)
        | .invalidSelector sel => .next (raiseInvalidSelector sel w s)

/-- `s` with the word of `nbits` bits stored where the next step fetches, ready to run it (log 12). -/
def State.withFetchWord (s : State) (nbits w : Nat) : State := placeInstruction (tableWord nbits w) s

end Sys2Proof.Machine
end

