-- ==== Sys2Proof/Machine/ReadNum.lean ====
section
/-! DEFINITION. `readNum()` as 44_io.md R170 writes it: a loop of attempts, each a few scans of the bytes that are left.
The machine runs the byte-level form of R179 (`readFrom`), which can wait between two bytes; this is the form a reader
holds beside R170, and the two are stated equal (`Obligations.InpComputesReadNum`). -/

namespace Sys2Proof.Machine

/-- How one attempt ends, with the bytes it leaves unread. -/
inductive Attempt where
  /-- The bytes run out inside the attempt. -/
  | exhausted
  | accepted (n : Int) (rest : List Byte)
  | rejected (d : DiagKind) (rest : List Byte)
  deriving DecidableEq, Repr

/-- The value of a run of digits: `mag <- 10 · mag + (c - '0')` from 0 (R170). -/
def decimalValue (ds : List Byte) : Nat := ds.foldl (fun mag c => 10 * mag + digitValue c) 0

/-- `repeat c <- InNext() until c = LF`: what is left after the line, none where the bytes run out first (R170, R175). -/
def afterLine : List Byte → Option (List Byte)
  | [] => none
  | c :: cs => if c = charLF then some cs else afterLine cs

/-- A failed attempt whose next byte heads the given list: the line is discarded through its LF (R170, R175). -/
def rejectLine (d : DiagKind) (bs : List Byte) : Attempt :=
  match afterLine bs with
  | none => .exhausted
  | some rest => .rejected d rest

/-- The part of an attempt from the first byte after the sign on (R170). -/
def attemptToken (neg : Bool) : List Byte → Attempt
  | [] => .exhausted
  | d :: ds =>
    if isDigit d then
      match ((d :: ds).dropWhile isDigit).dropWhile isBlank with
      | [] => .exhausted
      | e :: es =>
        if e = charLF && inWordRange (tokenValue neg (decimalValue ((d :: ds).takeWhile isDigit))) then
          .accepted (tokenValue neg (decimalValue ((d :: ds).takeWhile isDigit))) es
        else rejectLine .malformed (e :: es)
    else rejectLine .notInteger (d :: ds)

/-- One pass of the outer loop of R170, after its prompt. -/
def attempt (cfg : Config) (bs : List Byte) : Attempt :=
  match bs.dropWhile (isSkipped cfg) with
  | [] => .exhausted
  | c :: cs => if isSign cfg c then attemptToken (c = charMinus) cs else attemptToken false (c :: cs)

/-- What `readNum` does with the bytes it is given: the diagnostics of the failed attempts in order, and the value
returned with the bytes left unread, or none where the bytes run out. -/
structure Reading where
  failed : List DiagKind
  result : Option (Int × List Byte)
  deriving DecidableEq, Repr

/-- The outer loop of R170, for at most `fuel` attempts. -/
def readAttempts (cfg : Config) : Nat → List Byte → Reading
  | 0, _ => { failed := [], result := none }
  | fuel + 1, bs =>
    match attempt cfg bs with
    | .exhausted => { failed := [], result := none }
    | .accepted n rest => { failed := [], result := some (n, rest) }
    | .rejected d rest =>
      { failed := d :: (readAttempts cfg fuel rest).failed, result := (readAttempts cfg fuel rest).result }

/-- `readNum()` over given bytes (R170). Every attempt takes a byte or more, so there is fuel enough. -/
def readNum (cfg : Config) (bs : List Byte) : Reading := readAttempts cfg (bs.length + 1) bs

/-- The diagnostics of the failed attempts (R177). -/
def diagTexts (cfg : Config) (failed : List DiagKind) : List Byte := failed.flatMap (diagText cfg)

/-- The prompts of `n` attempts (R178). -/
def prompts (cfg : Config) (n : Nat) : List Byte := (List.replicate n (promptOf cfg)).flatten

end Sys2Proof.Machine
end

