-- ==== Sys2Proof/Safety.lean ====
section
/-! DEFINITION. The vocabulary of the claims: the invariant of the machine, when an instruction has completed, and the
forms of an input line (44_io.md R170 to R181). -/

namespace Sys2Proof.Machine

/-! ### The invariant -/

/-- Memory is canonical and lists no address outside [0, `MEM_LEN`) (20_memory.md R50). -/
def State.MemOk (s : State) : Prop := s.mem.wf ∧ ∀ c ∈ s.mem, c.1 < s.cfg.memLen.val

/-- `ip` is at most 2^27 (10_state.md R22; log 5). -/
def State.IpOk (s : State) : Prop := s.ip.toNat ≤ 2 ^ 27

/-- No more bytes are consumed than were supplied (10_state.md R29). -/
def State.InputOk (s : State) : Prop := s.inPos ≤ s.input.bytes.length

/-- An INP in progress: the core is RUNNING at an INP word (44_io.md R171). -/
def State.ReaderOk (s : State) : Prop :=
  s.reader.isSome → s.run = .running ∧ fetch s = some inpWord

/-- The instructions that read memory at their operand (42_load_store.md R132). -/
def Instr.readsAt (i : Instr) (a : Operand) : Prop := i = .add a ∨ i = .sub a ∨ i = .lda a

/-- The row of 60_exceptions.md R203 that a record of stage EXECUTE belongs to, read against the word it names. -/
def FaultRecord.ExecuteRow (f : FaultRecord) (w : Word) (s : State) : Prop :=
  match f.cause with
  | .rangeRead =>
    ∃ i a, decode w = .instr i ∧ Instr.readsAt i a ∧ f.info = some a.toNat ∧ s.cfg.memLen.val ≤ a.toNat
  | .rangeWrite => ∃ a, decode w = .instr (.sta a) ∧ f.info = some a.toNat ∧ s.cfg.memLen.val ≤ a.toNat
  | .invalidOpcode => ∃ opc, decode w = .invalidOpcode opc ∧ f.info = some opc.toNat
  | .invalidIoSelector => ∃ sel, decode w = .invalidSelector sel ∧ f.info = some sel.toNat
  | .inputEof => w = inpWord ∧ f.info = none ∧ s.input.ended = true ∧ s.inPos = s.input.bytes.length

/-- The record is true of the state it was raised in, which it leaves in place: `ip` and the word there are the
record's, and the cause, info, stage and word are a row of 60_exceptions.md R203. -/
def FaultRecord.TrueOf (f : FaultRecord) (s : State) : Prop :=
  f.ip = s.ip ∧
  match f.stage with
  | .fetch => f.cause = .rangeRead ∧ f.info = some s.ip.toNat ∧ f.word = none ∧ s.cfg.memLen.val ≤ s.ip.toNat
  | .execute => ∃ w, f.word = some w ∧ fetch s = some w ∧ f.ExecuteRow w s

/-- `fault` is none while `run` ≠ FAULTED, and a true record once `run` = FAULTED (10_state.md R25). -/
def State.FaultOk (s : State) : Prop :=
  match s.fault with
  | none => s.run ≠ .faulted
  | some f => s.run = .faulted ∧ f.TrueOf s

/-- What every step keeps and every reset establishes. -/
structure State.Inv (s : State) : Prop where
  memOk : s.MemOk
  ipOk : s.IpOk
  inputOk : s.InputOk
  readerOk : s.ReaderOk
  faultOk : s.FaultOk

/-! ### Observations -/

/-- `s` after a fatal condition raised in it with none of its effects done: only `run`, `fault` and `diag` differ
(60_exceptions.md R202, R204). -/
def faultedWith (cause : Cause) (info : Option Nat) (stage : Stage) (word : Option Word) (s : State) : State :=
  { s with
    run := .faulted
    fault := some { cause := cause, info := info, ip := s.ip, stage := stage, word := word }
    diag := s.diag ++ Config.diagFatal cause info }

/-- The registers and ports that no arithmetic, memory, branch or halt instruction writes are as before. -/
structure PortsKept (s t : State) : Prop where
  lineMode : t.lineMode = s.lineMode
  inPos : t.inPos = s.inPos
  out : t.out = s.out
  reader : t.reader = s.reader
  input : t.input = s.input
  cfg : t.cfg = s.cfg

/-- The run state, the fault record and the diagnostic port are as before. -/
structure RunKept (s t : State) : Prop where
  run : t.run = s.run
  fault : t.fault = s.fault
  diag : t.diag = s.diag

/-- The word at an address, as every access sees it: none where the address is not in [0, `MEM_LEN`). -/
def State.wordAt (s : State) (a : Nat) : Option Word :=
  if a < s.cfg.memLen.val then some (s.mem.read a) else none

/-- The instruction that led to `t` has completed: no fatal condition was raised and it does not wait
(40_cycle_and_halt.md R105). -/
def Completed (t : State) : Prop := t.run ≠ .faulted ∧ t.reader = none

/-- Every word of memory reads as before. -/
def MemoryKept (s t : State) : Prop := ∀ x, t.wordAt x = s.wordAt x

/-- The instruction the next step executes (40_cycle_and_halt.md R100). -/
def State.nextInstr (s : State) : Option Instr :=
  match fetch s with
  | none => none
  | some w =>
    match decode w with
    | .instr i => some i
    | .invalidOpcode _ => none
    | .invalidSelector _ => none

/-! ### The forms of an input line

A line is a list of bytes ending in its LF. `plus` says whether `'+'` is a sign (44_io.md R173). -/

/-- An optional sign. -/
def SignBytes (plus : Bool) (sg : List Byte) : Prop :=
  sg = [] ∨ sg = [charMinus] ∨ (plus = true ∧ sg = [charPlus])

/-- One or more digits. -/
def DigitRun (ds : List Byte) : Prop := ds ≠ [] ∧ ds.all isDigit = true

/-- The value of a token with these sign and digits (44_io.md R170). -/
def tokenOf (sg ds : List Byte) : Int := tokenValue (sg = [charMinus]) (decimalValue ds)

/-- `[SP|TAB]* [sign] digit+ [SP|TAB]* LF` with the value `n` in range (44_io.md R174, R176). -/
def AcceptedLine (plus : Bool) (line : List Byte) (n : Int) : Prop :=
  ∃ pre sg ds post, line = pre ++ sg ++ ds ++ post ++ [charLF] ∧ pre.all isBlank = true ∧ SignBytes plus sg ∧
    DigitRun ds ∧ post.all isBlank = true ∧ n = tokenOf sg ds ∧ inWordRange n = true

/-- A line of blanks only (44_io.md R172). -/
def BlankLine (line : List Byte) : Prop := ∃ pre, line = pre ++ [charLF] ∧ pre.all isBlank = true

/-- A line with no integer token: after its blanks and an optional sign, what comes next is no digit. Without a sign it
is no sign byte either, and it is no blank. The blank line is `BlankLine`, not this (44_io.md R170, R173). -/
def NoTokenLine (plus : Bool) (line : List Byte) : Prop :=
  ∃ pre sg body, line = pre ++ sg ++ body ++ [charLF] ∧ pre.all isBlank = true ∧ SignBytes plus sg ∧
    charLF ∉ body ∧ sg ++ body ≠ [] ∧
    ∀ c, body.head? = some c →
      isDigit c = false ∧ (sg = [] → isBlank c = false ∧ c ≠ charMinus ∧ (plus = true → c ≠ charPlus))

/-- A line with an integer token that is not accepted: something but blanks follows the token, or its value is out of
range (44_io.md R170, R174). -/
def BadTokenLine (plus : Bool) (line : List Byte) : Prop :=
  ∃ pre sg ds post tail, line = pre ++ sg ++ ds ++ post ++ tail ++ [charLF] ∧ pre.all isBlank = true ∧
    SignBytes plus sg ∧ DigitRun ds ∧ post.all isBlank = true ∧ charLF ∉ tail ∧
    (tail = [] → inWordRange (tokenOf sg ds) = false) ∧
    ∀ c, tail.head? = some c → isBlank c = false ∧ (post = [] → isDigit c = false)

/-- A rejected line of a plain input: its first non-blank byte is neither a digit, `'-'` nor `'+'`, and it holds no CR
(44_io.md R181). -/
def PlainRejectedLine (line : List Byte) : Prop :=
  ∃ pre c body, line = pre ++ c :: body ++ [charLF] ∧ pre.all isBlank = true ∧ charLF ∉ c :: body ∧
    isBlank c = false ∧ isDigit c = false ∧ c ≠ charMinus ∧ c ≠ charPlus ∧ (0x0D : Byte) ∉ line

/-- A plain input: whole lines, each accepted or rejected as R181 says (44_io.md R181). -/
def PlainInput (bs : List Byte) : Prop :=
  ∃ lines : List (List Byte), bs = lines.flatten ∧
    ∀ l ∈ lines, (∃ n, AcceptedLine false l n) ∨ PlainRejectedLine l

end Sys2Proof.Machine
end

