-- ==== Sys2Proof/Certificates/Slice0/Obligations.lean ====
section
/-! DEFINITION. The statements for the provers. -/

open Sys2Proof Sys2Proof.Machine

/-! ### Encoding -/

/-- Words written out bit by bit from 30_encoding.md sections 2 and 3 decode to what they stand for: at least one of
each family, and invalid ones. -/
def Obligations.WrittenWordsDecode : Prop :=
  decode 0b00000_111111111111111111111111111 = .instr (.hlt 0b111111111111111111111111111) ∧
  decode 0b00001_000000000000000000000000011 = .instr (.add 3) ∧
  decode 0b00010_000000000000000000000000111 = .instr (.sub 7) ∧
  decode 0b00011_000000000000000000000001001 = .instr (.sta 9) ∧
  decode 0b00101_000000000000000000000000100 = .instr (.lda 4) ∧
  decode 0b00110_100000000000000000000000001 = .instr (.bra 0b100000000000000000000000001) ∧
  decode 0b00111_000000000000000000000001001 = .instr (.brz 9) ∧
  decode 0b01000_000000000000000000000000010 = .instr (.brp 2) ∧
  decode 0b01001_000000000000000000000000001 = .instr .inp ∧
  decode 0b01001_000000000000000000000000010 = .instr .out ∧
  decode 0b01001_000000000000000000000010110 = .instr .otc ∧
  decode 0b00100_000000000000000000000000000 = .invalidOpcode 4 ∧
  decode 0b01010_000000000000000000000000000 = .invalidOpcode 10 ∧
  decode 0b11111_111111111111111111111111111 = .invalidOpcode 31 ∧
  decode 0b01001_000000100000000000000000001 = .invalidSelector 0x100001

/-- The opcode map over all words, in numbers: the opcode is the word divided by 2^27 and the operand the remainder
(30_encoding.md sections 1 to 3; the unsigned opcode is D27, log 29, the whole-operand selector D9, log 27). -/
def Obligations.DecodeFollowsOpcodeMap : Prop :=
  ∀ (w : Word) (opd : Operand), opd.toNat = w.toNat % 2 ^ 27 →
    (w.toNat / 2 ^ 27 = 0 → decode w = .instr (.hlt opd)) ∧
    (w.toNat / 2 ^ 27 = 1 → decode w = .instr (.add opd)) ∧
    (w.toNat / 2 ^ 27 = 2 → decode w = .instr (.sub opd)) ∧
    (w.toNat / 2 ^ 27 = 3 → decode w = .instr (.sta opd)) ∧
    (w.toNat / 2 ^ 27 = 5 → decode w = .instr (.lda opd)) ∧
    (w.toNat / 2 ^ 27 = 6 → decode w = .instr (.bra opd)) ∧
    (w.toNat / 2 ^ 27 = 7 → decode w = .instr (.brz opd)) ∧
    (w.toNat / 2 ^ 27 = 8 → decode w = .instr (.brp opd)) ∧
    (w.toNat / 2 ^ 27 = 9 → opd = 1 → decode w = .instr .inp) ∧
    (w.toNat / 2 ^ 27 = 9 → opd = 2 → decode w = .instr .out) ∧
    (w.toNat / 2 ^ 27 = 9 → opd = 22 → decode w = .instr .otc) ∧
    (w.toNat / 2 ^ 27 = 9 → opd ≠ 1 → opd ≠ 2 → opd ≠ 22 → decode w = .invalidSelector opd) ∧
    (∀ opc : Opcode, opc.toNat = w.toNat / 2 ^ 27 → (opc.toNat = 4 ∨ 10 ≤ opc.toNat) →
      decode w = .invalidOpcode opc)

/-- Each row of the opcode table by its match and mask: a word decodes to the row's operation exactly when the word
under the mask is the match (30_encoding.md sections 2 and 3). -/
def Obligations.OpcodeTableMatchAndMask : Prop :=
  ∀ w : Word,
    ((∃ opd, decode w = .instr (.hlt opd)) ↔ w &&& 0xF8000000 = 0x00000000) ∧
    ((∃ a, decode w = .instr (.add a)) ↔ w &&& 0xF8000000 = 0x08000000) ∧
    ((∃ a, decode w = .instr (.sub a)) ↔ w &&& 0xF8000000 = 0x10000000) ∧
    ((∃ a, decode w = .instr (.sta a)) ↔ w &&& 0xF8000000 = 0x18000000) ∧
    ((∃ a, decode w = .instr (.lda a)) ↔ w &&& 0xF8000000 = 0x28000000) ∧
    ((∃ a, decode w = .instr (.bra a)) ↔ w &&& 0xF8000000 = 0x30000000) ∧
    ((∃ a, decode w = .instr (.brz a)) ↔ w &&& 0xF8000000 = 0x38000000) ∧
    ((∃ a, decode w = .instr (.brp a)) ↔ w &&& 0xF8000000 = 0x40000000) ∧
    (decode w = .instr .inp ↔ w = 0x48000001) ∧
    (decode w = .instr .out ↔ w = 0x48000002) ∧
    (decode w = .instr .otc ↔ w = 0x48000016) ∧
    ((∃ opc, decode w = .invalidOpcode opc) ↔
      w &&& 0xF8000000 = 0x20000000 ∨ w &&& 0xF0000000 = 0x50000000 ∨ w &&& 0xE0000000 = 0x60000000 ∨
      w &&& 0x80000000 = 0x80000000) ∧
    ((∃ sel, decode w = .invalidSelector sel) ↔
      w &&& 0xF8000000 = 0x48000000 ∧ w ≠ 0x48000001 ∧ w ≠ 0x48000002 ∧ w ≠ 0x48000016)

/-- Decoding the word of any instruction, with every operand, gives the instruction back. -/
def Obligations.DecodeOfEncode : Prop := ∀ i : Instr, i.wellFormed = true ∧ decode (encode i) = .instr i

/-- A word that decodes to an instruction is that instruction's word: decoding drops no bit, and each word has one
meaning (30_encoding.md section 3). -/
def Obligations.EncodeOfDecode : Prop := ∀ (w : Word) (i : Instr), decode w = .instr i → encode i = w

/-- The loader's packing (30_encoding.md section 4; D26, log 26): it is defined exactly for the pairs in range, gives
an instruction's word for its pair, and keeps a raw data word's value. -/
def Obligations.PackingConvention : Prop :=
  (∀ i : Instr, pack i.toPair = some (encode i)) ∧
  (∀ p : RawPair, (pack p).isSome = true ↔
    (p.op = 0 ∧ -2 ^ 31 ≤ p.opd ∧ p.opd < 2 ^ 31) ∨ (1 ≤ p.op ∧ p.op ≤ 31 ∧ 0 ≤ p.opd ∧ p.opd < 2 ^ 27)) ∧
  (∀ (p : RawPair) (w : Word), pack p = some w → 1 ≤ p.op →
    w.toNat / 2 ^ 27 = p.op ∧ ((w.toNat % 2 ^ 27 : Nat) : Int) = p.opd) ∧
  (∀ (v : Int) (w : Word), pack { op := 0, opd := v } = some w → sval w = v)

/-- R87: a word with a value in [0, 2^27) executes as HLT whatever its operand bits; other data words execute as the
instruction their bits spell, and a negative word faults. -/
def Obligations.DataWordsExecute : Prop :=
  ∀ (s : State) (w : Word), s.run = .running → s.reader = none → s.wordAt s.ip.toNat = some w →
    (w.toNat / 2 ^ 27 = 0 ↔ 0 ≤ sval w ∧ sval w < 2 ^ 27) ∧
    (0 ≤ sval w ∧ sval w < 2 ^ 27 → step s = .next { s with run := .halted }) ∧
    (2 ^ 27 ≤ sval w ↔ 1 ≤ w.toNat / 2 ^ 27 ∧ w.toNat / 2 ^ 27 ≤ 15) ∧
    (∀ i, decode w = .instr i → step s = exec i s) ∧
    (sval w < 0 ↔ 16 ≤ w.toNat / 2 ^ 27) ∧
    (sval w < 0 → step s =
      .next (faultedWith .invalidOpcode (some (w.toNat / 2 ^ 27)) .execute (some w) s))

/-! ### The step -/

/-- While RUNNING, a step is the meaning of the instruction the word at `ip` decodes to; an INP that waits on the host
is gone on with instead (40_cycle_and_halt.md section 1; the wait is log 9). -/
def Obligations.StepRunsTheDecodedInstruction : Prop :=
  (∀ (s : State) (w : Word) (i : Instr), s.run = .running → s.reader = none → s.wordAt s.ip.toNat = some w →
    decode w = .instr i → step s = exec i s) ∧
  (∀ (s : State) (r : Reader), s.run = .running → s.reader = some r → step s = resumeReading r s)

/-- R101: the fetch reads the word at `ip`; at `ip` ≥ `MEM_LEN` the step raises RANGE_READ at stage FETCH and changes
nothing but `run`, `fault` and `diag`. -/
def Obligations.FetchOutOfRangeFaults : Prop :=
  (∀ (s : State) (w : Word), s.wordAt s.ip.toNat = some w → fetch s = some w) ∧
  (∀ s : State, s.run = .running → s.reader = none → s.cfg.memLen.val ≤ s.ip.toNat →
    step s = .next (faultedWith .rangeRead (some s.ip.toNat) .fetch none s))

/-- R107: opcode 4 and opcodes 10 to 31 raise INVALID_OPCODE at stage EXECUTE with the opcode and the word; no later
instruction executes. -/
def Obligations.InvalidOpcodeFaults : Prop :=
  ∀ (s : State) (w : Word), s.run = .running → s.reader = none → s.wordAt s.ip.toNat = some w →
    (w.toNat / 2 ^ 27 = 4 ∨ 10 ≤ w.toNat / 2 ^ 27) →
    step s = .next (faultedWith .invalidOpcode (some (w.toNat / 2 ^ 27)) .execute (some w) s) ∧
    ∀ u, step (faultedWith .invalidOpcode (some (w.toNat / 2 ^ 27)) .execute (some w) s) ≠ .next u

/-- An IO word whose 27-bit operand is none of 1, 2 and 22 raises INVALID_IO_SELECTOR (44_io.md section 1; the
comparison of the whole operand is D9, log 27). -/
def Obligations.InvalidSelectorFaults : Prop :=
  ∀ (s : State) (w : Word), s.run = .running → s.reader = none → s.wordAt s.ip.toNat = some w →
    w.toNat / 2 ^ 27 = 9 → w.toNat % 2 ^ 27 ≠ 1 → w.toNat % 2 ^ 27 ≠ 2 → w.toNat % 2 ^ 27 ≠ 22 →
    step s = .next (faultedWith .invalidIoSelector (some (w.toNat % 2 ^ 27)) .execute (some w) s)

/-- In HALTED and in FAULTED no step is enabled (40_cycle_and_halt.md section 1). That the step then answers the named
Fault is the model's choice (log 7). -/
def Obligations.StoppedStatesTakeNoStep : Prop :=
  ∀ s : State, (s.run = .halted → step s = .fault .halted) ∧ (s.run = .faulted → step s = .fault .faulted)

/-- While RUNNING, every step answers a next state: nothing is refused and no running state is stuck. -/
def Obligations.RunningStepAnswersNext : Prop := ∀ s : State, s.run = .running → ∃ t, step s = .next t

/-! ### Results and completion -/

/-- R106: HLT sets `run` to HALTED and changes nothing else, for every operand. That `ip` stays is R106's own text, which
the spec marks as unaudited (D8, log 21). -/
def Obligations.HltResult : Prop :=
  ∀ (opd : Operand) (s : State), exec (.hlt opd) s = .next { s with run := .halted }

/-- ADD, in range and out of range (41_arithmetic.md section 1; 60_exceptions.md section 1). That the record's `word` is
the instruction's encoding is DEDUCED (log 11). -/
def Obligations.AddResult : Prop :=
  ∀ (a : Operand) (s : State),
    (∀ v, s.wordAt a.toNat = some v →
      exec (.add a) s = .next { s with acc := word (sval s.acc + sval v), ip := s.ip + 1 }) ∧
    (s.cfg.memLen.val ≤ a.toNat →
      exec (.add a) s = .next (faultedWith .rangeRead (some a.toNat) .execute (some (encode (.add a))) s))

/-- SUB, in range and out of range (41_arithmetic.md section 2; 60_exceptions.md section 1). That the record's `word` is
the instruction's encoding is DEDUCED (log 11). -/
def Obligations.SubResult : Prop :=
  ∀ (a : Operand) (s : State),
    (∀ v, s.wordAt a.toNat = some v →
      exec (.sub a) s = .next { s with acc := word (sval s.acc - sval v), ip := s.ip + 1 }) ∧
    (s.cfg.memLen.val ≤ a.toNat →
      exec (.sub a) s = .next (faultedWith .rangeRead (some a.toNat) .execute (some (encode (.sub a))) s))

/-- R122: the result of ADD and SUB is the exact integer result reduced modulo 2^32 into the signed range, and is the
modulo-2^32 sum or difference of the bit patterns; overflow never faults. -/
def Obligations.ArithmeticWraps : Prop :=
  ∀ (a : Operand) (v : Word) (s : State), s.wordAt a.toNat = some v →
    (∃ t, exec (.add a) s = .next t ∧
      t.run = s.run ∧ t.acc = s.acc + v ∧ sval t.acc = Int.bmod (sval s.acc + sval v) (2 ^ 32) ∧
      (-2 ^ 31 ≤ sval s.acc + sval v → sval s.acc + sval v < 2 ^ 31 → sval t.acc = sval s.acc + sval v)) ∧
    (∃ t, exec (.sub a) s = .next t ∧
      t.run = s.run ∧ t.acc = s.acc - v ∧ sval t.acc = Int.bmod (sval s.acc - sval v) (2 ^ 32) ∧
      (-2 ^ 31 ≤ sval s.acc - sval v → sval s.acc - sval v < 2 ^ 31 → sval t.acc = sval s.acc - sval v))

/-- STA, over canonical memory: the word at the operand becomes `acc`, every other word reads as before, `acc`
and everything else but `ip` is unchanged; where the operand is the next `ip`, the next fetch reads the stored value;
out of range it raises RANGE_WRITE and no word changes (42_load_store.md section 1; 60_exceptions.md section 1). That the
record's `word` is the instruction's encoding is DEDUCED (log 11). -/
def Obligations.StaResult : Prop :=
  ∀ (a : Operand) (s : State), s.mem.wf →
    (a.toNat < s.cfg.memLen.val → ∃ t, exec (.sta a) s = .next t ∧ t.wordAt a.toNat = some s.acc ∧
      (∀ x, x ≠ a.toNat → t.wordAt x = s.wordAt x) ∧ t = { s with mem := t.mem, ip := s.ip + 1 } ∧
      (a.toNat = (s.ip + 1).toNat → fetch t = some s.acc)) ∧
    (s.cfg.memLen.val ≤ a.toNat →
      exec (.sta a) s = .next (faultedWith .rangeWrite (some a.toNat) .execute (some (encode (.sta a))) s))

/-- LDA, in range and out of range (42_load_store.md section 2; 60_exceptions.md section 1). That the record's `word` is
the instruction's encoding is DEDUCED (log 11). -/
def Obligations.LdaResult : Prop :=
  ∀ (a : Operand) (s : State),
    (∀ v, s.wordAt a.toNat = some v → exec (.lda a) s = .next { s with acc := v, ip := s.ip + 1 }) ∧
    (s.cfg.memLen.val ≤ a.toNat →
      exec (.lda a) s = .next (faultedWith .rangeRead (some a.toNat) .execute (some (encode (.lda a))) s))

/-- R140: BRA is always taken; a target out of range faults at the following fetch, not at the branch. -/
def Obligations.BraResult : Prop :=
  ∀ (a : Operand) (s : State),
    exec (.bra a) s = .next { s with ip := a.setWidth 32 } ∧
    (s.run = .running → s.reader = none → s.cfg.memLen.val ≤ a.toNat →
      step { s with ip := a.setWidth 32 } =
        .next (faultedWith .rangeRead (some a.toNat) .fetch none { s with ip := a.setWidth 32 }))

/-- R141: BRZ is taken exactly for `acc` = 0; a taken branch out of range faults at the following fetch. -/
def Obligations.BrzResult : Prop :=
  ∀ (a : Operand) (s : State),
    (s.acc = 0 ↔ sval s.acc = 0) ∧
    (sval s.acc = 0 → exec (.brz a) s = .next { s with ip := a.setWidth 32 }) ∧
    (sval s.acc ≠ 0 → exec (.brz a) s = .next { s with ip := s.ip + 1 }) ∧
    (s.run = .running → s.reader = none → s.cfg.memLen.val ≤ a.toNat → sval s.acc = 0 →
      step { s with ip := a.setWidth 32 } =
        .next (faultedWith .rangeRead (some a.toNat) .fetch none { s with ip := a.setWidth 32 }))

/-- R142: BRP is taken exactly for `sval(acc)` ≥ 0, that is, for `acc[31]` = 0; a taken branch out of range faults at
the following fetch. -/
def Obligations.BrpResult : Prop :=
  ∀ (a : Operand) (s : State),
    (s.acc.getLsbD 31 = false ↔ 0 ≤ sval s.acc) ∧
    (0 ≤ sval s.acc → exec (.brp a) s = .next { s with ip := a.setWidth 32 }) ∧
    (sval s.acc < 0 → exec (.brp a) s = .next { s with ip := s.ip + 1 }) ∧
    (s.run = .running → s.reader = none → s.cfg.memLen.val ≤ a.toNat → 0 ≤ sval s.acc →
      step { s with ip := a.setWidth 32 } =
        .next (faultedWith .rangeRead (some a.toNat) .fetch none { s with ip := a.setWidth 32 }))

/-- OUT appends the decimal text of `acc`, and LF out of line mode; nothing else but `ip` changes (44_io.md section 2;
the text's form is PRESUMED, D12, log 14, and LF's code D11, log 13). -/
def Obligations.OutResult : Prop :=
  ∀ s : State,
    (s.lineMode = true → exec .out s = .next { s with out := s.out ++ dec (sval s.acc), ip := s.ip + 1 }) ∧
    (s.lineMode = false → exec .out s = .next { s with out := s.out ++ dec (sval s.acc) ++ [0x0A], ip := s.ip + 1 })

/-- OTC appends the low byte of `acc` and sets the line mode exactly when it is not LF; nothing else but `ip` changes
(44_io.md section 2; 8 bits is D10, log 15, and LF's code D11, log 13). -/
def Obligations.OtcResult : Prop :=
  ∀ (s : State) (b : Byte), b.toNat = s.acc.toNat % 256 →
    exec .otc s = .next { s with out := s.out ++ [b], lineMode := decide (b ≠ 0x0A), ip := s.ip + 1 }

/-- INP on an accepted line: the value is written, exactly the line is consumed, one prompt is emitted, and everything
else but `ip` is unchanged (44_io.md section 3; D15 to D20, logs 16, 17 and 19). -/
def Obligations.InpAcceptsLine : Prop :=
  ∀ (s : State) (line rest : List Byte) (n : Int), s.inputLeft = line ++ rest →
    AcceptedLine s.cfg.acceptPlus line n →
    exec .inp s = .next { s with
      acc := word n
      ip := s.ip + 1
      inPos := s.inPos + line.length
      out := s.out ++ if s.cfg.promptEnabled then s.cfg.promptText else [] }

/-- INP on a line with no integer token discards the line, emits DIAG_NOT_INTEGER and starts again from the top
(44_io.md section 3; D14, D18, D20, logs 16, 17 and 19). -/
def Obligations.InpRetriesAfterNoToken : Prop :=
  ∀ (s : State) (line rest : List Byte), s.inputLeft = line ++ rest → NoTokenLine s.cfg.acceptPlus line →
    exec .inp s = exec .inp { s with
      inPos := s.inPos + line.length
      out := s.out ++ if s.cfg.promptEnabled then s.cfg.promptText else []
      diag := s.diag ++ s.cfg.diagNotInteger }

/-- INP on a line with trailing content or a value out of range discards the line, emits DIAG_MALFORMED and starts
again from the top (44_io.md section 3; D14, D19, D20, logs 16, 17 and 19). -/
def Obligations.InpRetriesAfterBadToken : Prop :=
  ∀ (s : State) (line rest : List Byte), s.inputLeft = line ++ rest → BadTokenLine s.cfg.acceptPlus line →
    exec .inp s = exec .inp { s with
      inPos := s.inPos + line.length
      out := s.out ++ if s.cfg.promptEnabled then s.cfg.promptText else []
      diag := s.diag ++ s.cfg.diagMalformed }

/-- INP on a blank line: skipped with no diagnostic and no new prompt where BLANK_LINE_SKIPPED, and an attempt with no
token where not (44_io.md section 3; D16, log 16). -/
def Obligations.InpOnBlankLine : Prop :=
  ∀ (s : State) (line rest : List Byte), s.inputLeft = line ++ rest → BlankLine line →
    (s.cfg.blankLineSkipped = true → exec .inp s = exec .inp { s with inPos := s.inPos + line.length }) ∧
    (s.cfg.blankLineSkipped = false → exec .inp s = exec .inp { s with
      inPos := s.inPos + line.length
      out := s.out ++ if s.cfg.promptEnabled then s.cfg.promptText else []
      diag := s.diag ++ s.cfg.diagNotInteger })

/-- The byte-level protocol the machine runs computes `readNum` as the loop of attempts writes it: the same value, the
same bytes consumed, one prompt an attempt, one diagnostic a failed attempt, INPUT_EOF where the input has ended and a
wait where it has not (44_io.md section 3, the loop and the byte-level table; the wait is log 9). -/
def Obligations.InpComputesReadNum : Prop :=
  ∀ s : State,
    (∀ n rest, (readNum s.cfg s.inputLeft).result = some (n, rest) →
      exec .inp s = .next { s with
        acc := word n
        ip := s.ip + 1
        inPos := s.inPos + (s.inputLeft.length - rest.length)
        out := s.out ++ prompts s.cfg ((readNum s.cfg s.inputLeft).failed.length + 1)
        diag := s.diag ++ diagTexts s.cfg (readNum s.cfg s.inputLeft).failed }) ∧
    ((readNum s.cfg s.inputLeft).result = none → s.input.ended = true →
      exec .inp s = .next (faultedWith .inputEof none .execute (some 0x48000001) { s with
        inPos := s.inPos + s.inputLeft.length
        out := s.out ++ prompts s.cfg ((readNum s.cfg s.inputLeft).failed.length + 1)
        diag := s.diag ++ diagTexts s.cfg (readNum s.cfg s.inputLeft).failed })) ∧
    ((readNum s.cfg s.inputLeft).result = none → s.input.ended = false → ∃ r,
      exec .inp s = .next { s with
        inPos := s.inPos + s.inputLeft.length
        out := s.out ++ prompts s.cfg ((readNum s.cfg s.inputLeft).failed.length + 1)
        diag := s.diag ++ diagTexts s.cfg (readNum s.cfg s.inputLeft).failed
        reader := some r })

/-- With a finite input every INP ends: it returns a value or raises INPUT_EOF with the whole input consumed
(44_io.md section 3). -/
def Obligations.InpEndsOnFiniteInput : Prop :=
  ∀ s : State, s.input.ended = true → s.InputOk → ∃ t, exec .inp s = .next t ∧ t.reader = s.reader ∧
    ((t.ip = s.ip + 1 ∧ t.run = s.run ∧ t.inPos ≤ s.input.bytes.length) ∨
     (t.ip = s.ip ∧ t.acc = s.acc ∧ t.run = .faulted ∧ t.inPos = s.input.bytes.length ∧
      t.fault = some { cause := .inputEof, info := none, ip := s.ip, stage := .execute, word := some 0x48000001 }))

/-- Where an INP waits makes no difference: going on from the wait, once the host has supplied more bytes or ended the
input, is the step it would have been with all of that supplied before (the model's wait, log 9, and log 28). -/
def Obligations.WaitingInpIsResumedExactly : Prop :=
  ∀ (s t : State) (bs : List Byte), s.run = .running → s.InputOk → s.input.ended = false → step s = .next t →
    t.reader ≠ none →
    step (t.hostSupply bs) = step (s.hostSupply bs) ∧ step t.hostEndInput = step s.hostEndInput

/-- A waiting INP with nothing new supplied stays where it is (log 9; 60_exceptions.md section 5). -/
def Obligations.WaitingInpStaysWaiting : Prop :=
  ∀ (s : State) (r : Reader), s.run = .running → s.reader = some r → s.inputLeft = [] → s.input.ended = false →
    step s = .next s

/-- On a plain input, INP gives the same `acc`, `inPos` and `out` under every value of BLANK_LINE_SKIPPED, ACCEPT_PLUS
and the diagnostic texts (44_io.md section 3). -/
def Obligations.PlainInputsDoNotDependOnOpenParameters : Prop :=
  ∀ (s t : State) (blank plus : Bool) (ni mf : List Byte), PlainInput s.inputLeft → exec .inp s = .next t →
    ∃ u, exec .inp { s with cfg := { s.cfg with
        blankLineSkipped := blank, acceptPlus := plus, diagNotInteger := ni, diagMalformed := mf } } = .next u ∧
      u.acc = t.acc ∧ u.inPos = t.inPos ∧ u.out = t.out ∧ u.ip = t.ip ∧ u.run = t.run ∧ u.reader = t.reader

/-- No step's effect outside `diag` depends on the recoverable diagnostics' texts or on what `diag` holds. -/
def Obligations.DiagnosticsInfluenceNothing : Prop :=
  ∀ (s t : State) (ni mf d : List Byte), step s = .next t →
    ∃ u, step { s with diag := d, cfg := { s.cfg with diagNotInteger := ni, diagMalformed := mf } } = .next u ∧
      u = { t with diag := u.diag, cfg := { s.cfg with diagNotInteger := ni, diagMalformed := mf } }

/-- The decimal text: a minus sign exactly for negatives, then digits whose value is the magnitude, with no leading
zero but for 0 itself (00_scope.md section 6; the form is PRESUMED, D12, log 14). -/
def Obligations.DecimalText : Prop :=
  ∀ n : Int, ∃ ds, dec n = (if n < 0 then [0x2D] else []) ++ ds ∧ DigitRun ds ∧ decimalValue ds = n.natAbs ∧
    (ds.head? = some 0x30 → ds = [0x30])

/-- What OUT prints on its own line, INP reads back: the line is accepted, gives the same word and is consumed whole
(44_io.md sections 2 and 3; the character codes and the decimal text are PRESUMED, logs 13 and 14; the token grammar is
log 16). -/
def Obligations.InpReadsBackWhatOutPrints : Prop :=
  ∀ (u t s : State) (printed rest : List Byte), u.lineMode = false → exec .out u = .next t →
    t.out = u.out ++ printed → s.inputLeft = printed ++ rest →
    exec .inp s = .next { s with
      acc := u.acc
      ip := s.ip + 1
      inPos := s.inPos + printed.length
      out := s.out ++ if s.cfg.promptEnabled then s.cfg.promptText else [] }

/-! ### Memory and reset -/

/-- A read after a write of the same index returns the value; every other index reads as before; both fault exactly
out of range (20_memory.md sections 1 and 2). -/
def Obligations.MemoryReadAfterWrite : Prop :=
  ∀ (s : State) (x y v : Word), s.mem.wf →
    ((memWrite x v s).isSome = true ↔ x.toNat < s.cfg.memLen.val) ∧
    ((memRead y s).isSome = true ↔ y.toNat < s.cfg.memLen.val) ∧
    ∀ t, memWrite x v s = some t → memRead x t = some v ∧ (y ≠ x → memRead y t = memRead y s) ∧ t.mem.wf

/-- Equal memories are equal data: two canonical memories that read alike everywhere are the same list, and a write
that changes no word changes nothing (log 1). -/
def Obligations.CanonicalMemoryIsUnique : Prop :=
  (∀ m n : Memory, m.wf → n.wf → (∀ a, m.read a = n.read a) → m = n) ∧
  (∀ (m : Memory) (a : Nat), m.wf → m.write a (m.read a) = m)

/-- R53: reset contents are the image, cut off or padded with zero words, for every image and `MEM_LEN`. -/
def Obligations.ResetMemoryIsPaddedImage : Prop :=
  ∀ (cfg : Config) (image : List Word) (input : InputPort) (i : Nat),
    (i < cfg.memLen.val → (State.resetWith cfg image input).wordAt i = some (if h : i < image.length then image[i] else 0)) ∧
    (cfg.memLen.val ≤ i → (State.resetWith cfg image input).wordAt i = none)

/-- Every register after reset, and the first step: it fetches word 0, or faults where there is no memory
(70_reset_and_hazards.md section 1; the line mode's value is derived there, log 22, and that no INP is in progress is
the model's field, log 9). -/
def Obligations.ResetState : Prop :=
  ∀ (cfg : Config) (image : List Word) (input : InputPort) (s : State), s = State.resetWith cfg image input →
    (s.acc = 0 ∧ s.ip = 0 ∧ s.run = .running ∧ s.fault = none ∧ s.lineMode = false ∧ s.inPos = 0 ∧ s.out = [] ∧
      s.diag = [] ∧ s.reader = none ∧ s.input = input ∧ s.cfg = cfg) ∧
    (cfg.memLen.val = 0 → step s = .next (faultedWith .rangeRead (some 0) .fetch none s)) ∧
    (∀ i, 0 < cfg.memLen.val → decode (image.headD 0) = .instr i → step s = exec i s)

/-- A word stored by STA is what a fetch of that address sees, the very next one included (20_memory.md section 4). -/
def Obligations.StoreIsSeenByNextFetch : Prop :=
  ∀ (s t : State) (a : Operand) (i : Instr), s.mem.wf → s.run = .running → s.reader = none →
    exec (.sta a) s = .next t → t.run = .running → t.ip.toNat = a.toNat → decode s.acc = .instr i →
    fetch t = some s.acc ∧ step t = exec i t

/-! ### Frames -/

/-- ADD, SUB and LDA write `acc` and `ip` only; out of range they write neither. No word of memory changes. -/
def Obligations.LoadAndArithmeticFrame : Prop :=
  ∀ (i : Instr) (a : Operand) (s t : State), Instr.readsAt i a → exec i s = .next t →
    MemoryKept s t ∧ PortsKept s t ∧
    (a.toNat < s.cfg.memLen.val → RunKept s t) ∧
    (s.cfg.memLen.val ≤ a.toNat → t.acc = s.acc ∧ t.ip = s.ip)

/-- STA writes the word at its effective address and `ip` only; out of range it writes neither. -/
def Obligations.StoreFrame : Prop :=
  ∀ (a : Operand) (s t : State), s.mem.wf → exec (.sta a) s = .next t →
    (∀ x, x ≠ (effectiveAddress a).toNat → t.wordAt x = s.wordAt x) ∧ t.acc = s.acc ∧ PortsKept s t ∧
    (a.toNat < s.cfg.memLen.val → RunKept s t) ∧
    (s.cfg.memLen.val ≤ a.toNat → t.ip = s.ip ∧ MemoryKept s t)

/-- BRA, BRZ and BRP write `ip` only, and HLT `run` only. -/
def Obligations.BranchAndHaltFrame : Prop :=
  ∀ (a : Operand) (s t : State),
    (exec (.bra a) s = .next t ∨ exec (.brz a) s = .next t ∨ exec (.brp a) s = .next t →
      MemoryKept s t ∧ PortsKept s t ∧ RunKept s t ∧ t.acc = s.acc) ∧
    (exec (.hlt a) s = .next t →
      MemoryKept s t ∧ PortsKept s t ∧ t.acc = s.acc ∧ t.ip = s.ip ∧ t.fault = s.fault ∧ t.diag = s.diag)

/-- OUT writes `out` and `ip` only, and OTC the line mode too. -/
def Obligations.OutputFrame : Prop :=
  ∀ (i : Instr) (s t : State), i = .out ∨ i = .otc → exec i s = .next t →
    MemoryKept s t ∧ RunKept s t ∧ t.acc = s.acc ∧ (i = .out → t.lineMode = s.lineMode) ∧ t.inPos = s.inPos ∧
    t.reader = s.reader ∧ t.input = s.input ∧ t.cfg = s.cfg

/-- INP leaves memory, the line mode, the parameters and the input port as they are; `acc` and `ip` change only
together with its completion, and `fault` only where it raises INPUT_EOF, whose record it then is (44_io.md section 3;
60_exceptions.md section 1). -/
def Obligations.InputFrame : Prop :=
  ∀ (s t : State), s.run = .running → s.reader = none → exec .inp s = .next t →
    MemoryKept s t ∧ t.lineMode = s.lineMode ∧ t.input = s.input ∧ t.cfg = s.cfg ∧
    (Completed t → t.ip = s.ip + 1 ∧ t.run = s.run ∧ t.fault = s.fault) ∧
    (¬ Completed t → t.acc = s.acc ∧ t.ip = s.ip) ∧
    (t.run ≠ .faulted → t.fault = s.fault) ∧
    (t.run = .faulted →
      t.fault = some { cause := .inputEof, info := none, ip := s.ip, stage := .execute, word := some 0x48000001 })

/-! ### Rules of the whole machine -/

/-- The next `ip` after each instruction that completes (43_branch.md section 4). -/
def Obligations.NextIpTable : Prop :=
  ∀ (i : Instr) (s t : State), s.run = .running → s.reader = none → exec i s = .next t → Completed t →
    t.ip = match i with
      | .bra a => a.setWidth 32
      | .brz a => if s.acc = 0 then a.setWidth 32 else s.ip + 1
      | .brp a => if 0 ≤ sval s.acc then a.setWidth 32 else s.ip + 1
      | .hlt _ => s.ip
      | .add _ => s.ip + 1
      | .sub _ => s.ip + 1
      | .sta _ => s.ip + 1
      | .lda _ => s.ip + 1
      | .inp => s.ip + 1
      | .out => s.ip + 1
      | .otc => s.ip + 1

/-- The accumulator has four sources: ADD, SUB, LDA and the value INP reads (41_arithmetic.md section 3). -/
def Obligations.AccumulatorHasFourSources : Prop :=
  ∀ (i : Instr) (s t : State), exec i s = .next t →
    t.acc = s.acc ∨
    (∃ a v, s.wordAt a.toNat = some v ∧
      ((i = .add a ∧ t.acc = s.acc + v) ∨ (i = .sub a ∧ t.acc = s.acc - v) ∨ (i = .lda a ∧ t.acc = v))) ∨
    (i = .inp ∧ ∃ n rest, (readNum s.cfg s.inputLeft).result = some (n, rest) ∧ t.acc = word n)

/-- R165: only OTC writes the line mode: every step whose instruction is not OTC leaves it, faults and an INP in
progress included. -/
def Obligations.OnlyOtcWritesLineMode : Prop :=
  ∀ s t : State, step s = .next t → (s.reader ≠ none ∨ s.nextInstr ≠ some .otc) → t.lineMode = s.lineMode

/-- Only STA writes memory, and only the word at its operand (42_load_store.md section 2; 20_memory.md section 3). -/
def Obligations.OnlyStaWritesMemory : Prop :=
  ∀ s t : State, s.mem.wf → step s = .next t →
    t.mem = s.mem ∨
    (s.reader = none ∧ ∃ a, s.nextInstr = some (.sta a) ∧ t.wordAt a.toNat = some s.acc ∧
      ∀ x, x ≠ a.toNat → t.wordAt x = s.wordAt x)

/-- The ports only grow: no step takes back an emitted byte or un-consumes an input byte; `out` is written by OUT, OTC
and INP only, input is consumed by INP only, and `diag` is written by INP and by raising a fatal condition only (10_state.md
section 6). -/
def Obligations.PortsOnlyGrow : Prop :=
  ∀ s t : State, step s = .next t →
    s.out <+: t.out ∧ s.diag <+: t.diag ∧ s.inPos ≤ t.inPos ∧ (s.InputOk → t.InputOk) ∧
    (s.reader = none → s.nextInstr ≠ some .inp → t.inPos = s.inPos ∧
      (s.nextInstr ≠ some .out → s.nextInstr ≠ some .otc → t.out = s.out) ∧
      (t.run ≠ .faulted → t.diag = s.diag))

/-- No step changes a parameter or the input port (00_scope.md section 4; log 2). -/
def Obligations.StepsKeepParametersAndInput : Prop :=
  ∀ s t : State, step s = .next t → t.cfg = s.cfg ∧ t.input = s.input

/-- Faults are precise: FAULTED is entered with a record, `acc`, `ip`, memory and the line mode as before, and nothing
consumed or emitted but the fatal diagnostic; for INPUT_EOF what INP had done before remains, with the whole input
consumed. No step follows (60_exceptions.md section 1; D6 and D7, logs 6 and 20). -/
def Obligations.FaultsArePrecise : Prop :=
  ∀ s t : State, s.InputOk → step s = .next t → t.run = .faulted →
    t.acc = s.acc ∧ t.ip = s.ip ∧ t.mem = s.mem ∧ t.lineMode = s.lineMode ∧ t.reader = none ∧
    (∀ u, step t ≠ .next u) ∧
    ∃ f, t.fault = some f ∧ f.ip = s.ip ∧
      (f.cause ≠ .inputEof →
        t.inPos = s.inPos ∧ t.out = s.out ∧ t.diag = s.diag ++ Config.diagFatal f.cause f.info) ∧
      (f.cause = .inputEof → s.input.ended = true ∧ t.inPos = s.input.bytes.length ∧ s.out <+: t.out ∧
        ∃ texts, t.diag = s.diag ++ texts ++ Config.diagFatal .inputEof none)

/-- The fatal conditions, and only these: a step enters FAULTED exactly for a fetch out of range, an invalid opcode, an
invalid selector, an operand out of range of ADD, SUB, LDA or STA, or an INP whose input ends before an acceptable
line (60_exceptions.md section 1). -/
def Obligations.FatalConditionsExactly : Prop :=
  ∀ s t : State, s.reader = none → step s = .next t →
    (t.run = .faulted ↔
      s.cfg.memLen.val ≤ s.ip.toNat ∨
      ∃ w, s.wordAt s.ip.toNat = some w ∧
        ((∃ opc, decode w = .invalidOpcode opc) ∨ (∃ sel, decode w = .invalidSelector sel) ∨
         (∃ i a, decode w = .instr i ∧ (Instr.readsAt i a ∨ i = .sta a) ∧ s.cfg.memLen.val ≤ a.toNat) ∨
         (decode w = .instr .inp ∧ s.input.ended = true ∧ (readNum s.cfg s.inputLeft).result = none)))

/-- HALTED is entered by HLT only, and always by HLT (10_state.md section 3). -/
def Obligations.HaltedOnlyByHlt : Prop :=
  ∀ s t : State, step s = .next t →
    (t.halted = true ↔ s.reader = none ∧ ∃ opd, s.nextInstr = some (.hlt opd))

/-! ### The invariant -/

/-- Every step keeps the invariant: memory canonical and in bounds, `ip` at most 2^27, no more consumed than supplied,
an INP in progress only while RUNNING at an INP word, and a fault record exactly in FAULTED and true of the state. -/
def Obligations.StepKeepsTheInvariant : Prop := ∀ s t : State, s.Inv → step s = .next t → t.Inv

/-- Reset establishes the invariant, for every parameter, image and input; so it does in `State.reset`. -/
def Obligations.ResetEstablishesTheInvariant : Prop :=
  (∀ (cfg : Config) (image : List Word) (input : InputPort), (State.resetWith cfg image input).Inv) ∧
  State.reset.Inv ∧ State.reset = State.resetWith Config.default [] { bytes := [], ended := false }

/-- The host's actions change the input port only, keep the invariant, and after end-of-input
supply nothing (10_state.md section 6; log 28). -/
def Obligations.HostActsOnTheInputPortOnly : Prop :=
  ∀ (s : State) (bs : List Byte),
    (s.hostSupply bs = { s with input := (s.hostSupply bs).input }) ∧
    (s.hostEndInput = { s with input := { bytes := s.input.bytes, ended := true } }) ∧
    (s.input.ended = true → s.hostSupply bs = s) ∧
    (s.input.ended = false → s.InputOk → (s.hostSupply bs).inputLeft = s.inputLeft ++ bs) ∧
    (s.Inv → (s.hostSupply bs).Inv ∧ s.hostEndInput.Inv)

/-- A word placed where the next step fetches is what that step runs, from any state (log 12). -/
def Obligations.PlacedWordIsRun : Prop :=
  ∀ (s : State) (w : Nat) (i : Instr), decodeTableWord 32 w = some i → s.mem.wf →
    step (s.withFetchWord 32 w) = exec i (s.withFetchWord 32 w)
end

