-- ==== Sys2Proof/Laws/State.lean ====
section
/-! SUPPORT. What each field of State is after each named update: one lemma per field per update, all true by `rfl`. -/

namespace Sys2Proof.Machine

section setAcc
variable (v : Word) (s : State)

@[simp] theorem setAcc_acc : (setAcc v s).acc = v := rfl
@[simp] theorem setAcc_ip : (setAcc v s).ip = s.ip := rfl
@[simp] theorem setAcc_run : (setAcc v s).run = s.run := rfl
@[simp] theorem setAcc_fault : (setAcc v s).fault = s.fault := rfl
@[simp] theorem setAcc_mem : (setAcc v s).mem = s.mem := rfl
@[simp] theorem setAcc_lineMode : (setAcc v s).lineMode = s.lineMode := rfl
@[simp] theorem setAcc_inPos : (setAcc v s).inPos = s.inPos := rfl
@[simp] theorem setAcc_out : (setAcc v s).out = s.out := rfl
@[simp] theorem setAcc_diag : (setAcc v s).diag = s.diag := rfl
@[simp] theorem setAcc_reader : (setAcc v s).reader = s.reader := rfl
@[simp] theorem setAcc_input : (setAcc v s).input = s.input := rfl
@[simp] theorem setAcc_cfg : (setAcc v s).cfg = s.cfg := rfl

end setAcc

section jump
variable (v : Word) (s : State)

@[simp] theorem jump_acc : (jump v s).acc = s.acc := rfl
@[simp] theorem jump_ip : (jump v s).ip = v := rfl
@[simp] theorem jump_run : (jump v s).run = s.run := rfl
@[simp] theorem jump_fault : (jump v s).fault = s.fault := rfl
@[simp] theorem jump_mem : (jump v s).mem = s.mem := rfl
@[simp] theorem jump_lineMode : (jump v s).lineMode = s.lineMode := rfl
@[simp] theorem jump_inPos : (jump v s).inPos = s.inPos := rfl
@[simp] theorem jump_out : (jump v s).out = s.out := rfl
@[simp] theorem jump_diag : (jump v s).diag = s.diag := rfl
@[simp] theorem jump_reader : (jump v s).reader = s.reader := rfl
@[simp] theorem jump_input : (jump v s).input = s.input := rfl
@[simp] theorem jump_cfg : (jump v s).cfg = s.cfg := rfl

end jump

section advance
variable (s : State)

@[simp] theorem advance_acc : (advance s).acc = s.acc := rfl
@[simp] theorem advance_ip : (advance s).ip = s.ip + 1 := rfl
@[simp] theorem advance_run : (advance s).run = s.run := rfl
@[simp] theorem advance_fault : (advance s).fault = s.fault := rfl
@[simp] theorem advance_mem : (advance s).mem = s.mem := rfl
@[simp] theorem advance_lineMode : (advance s).lineMode = s.lineMode := rfl
@[simp] theorem advance_inPos : (advance s).inPos = s.inPos := rfl
@[simp] theorem advance_out : (advance s).out = s.out := rfl
@[simp] theorem advance_diag : (advance s).diag = s.diag := rfl
@[simp] theorem advance_reader : (advance s).reader = s.reader := rfl
@[simp] theorem advance_input : (advance s).input = s.input := rfl
@[simp] theorem advance_cfg : (advance s).cfg = s.cfg := rfl

end advance

section outEmit
variable (b : List Byte) (s : State)

@[simp] theorem outEmit_acc : (outEmit b s).acc = s.acc := rfl
@[simp] theorem outEmit_ip : (outEmit b s).ip = s.ip := rfl
@[simp] theorem outEmit_run : (outEmit b s).run = s.run := rfl
@[simp] theorem outEmit_fault : (outEmit b s).fault = s.fault := rfl
@[simp] theorem outEmit_mem : (outEmit b s).mem = s.mem := rfl
@[simp] theorem outEmit_lineMode : (outEmit b s).lineMode = s.lineMode := rfl
@[simp] theorem outEmit_inPos : (outEmit b s).inPos = s.inPos := rfl
@[simp] theorem outEmit_out : (outEmit b s).out = s.out ++ b := rfl
@[simp] theorem outEmit_diag : (outEmit b s).diag = s.diag := rfl
@[simp] theorem outEmit_reader : (outEmit b s).reader = s.reader := rfl
@[simp] theorem outEmit_input : (outEmit b s).input = s.input := rfl
@[simp] theorem outEmit_cfg : (outEmit b s).cfg = s.cfg := rfl

end outEmit

section diagEmit
variable (b : List Byte) (s : State)

@[simp] theorem diagEmit_acc : (diagEmit b s).acc = s.acc := rfl
@[simp] theorem diagEmit_ip : (diagEmit b s).ip = s.ip := rfl
@[simp] theorem diagEmit_run : (diagEmit b s).run = s.run := rfl
@[simp] theorem diagEmit_fault : (diagEmit b s).fault = s.fault := rfl
@[simp] theorem diagEmit_mem : (diagEmit b s).mem = s.mem := rfl
@[simp] theorem diagEmit_lineMode : (diagEmit b s).lineMode = s.lineMode := rfl
@[simp] theorem diagEmit_inPos : (diagEmit b s).inPos = s.inPos := rfl
@[simp] theorem diagEmit_out : (diagEmit b s).out = s.out := rfl
@[simp] theorem diagEmit_diag : (diagEmit b s).diag = s.diag ++ b := rfl
@[simp] theorem diagEmit_reader : (diagEmit b s).reader = s.reader := rfl
@[simp] theorem diagEmit_input : (diagEmit b s).input = s.input := rfl
@[simp] theorem diagEmit_cfg : (diagEmit b s).cfg = s.cfg := rfl

end diagEmit

section setLineMode
variable (b : Bool) (s : State)

@[simp] theorem setLineMode_acc : (setLineMode b s).acc = s.acc := rfl
@[simp] theorem setLineMode_ip : (setLineMode b s).ip = s.ip := rfl
@[simp] theorem setLineMode_run : (setLineMode b s).run = s.run := rfl
@[simp] theorem setLineMode_fault : (setLineMode b s).fault = s.fault := rfl
@[simp] theorem setLineMode_mem : (setLineMode b s).mem = s.mem := rfl
@[simp] theorem setLineMode_lineMode : (setLineMode b s).lineMode = b := rfl
@[simp] theorem setLineMode_inPos : (setLineMode b s).inPos = s.inPos := rfl
@[simp] theorem setLineMode_out : (setLineMode b s).out = s.out := rfl
@[simp] theorem setLineMode_diag : (setLineMode b s).diag = s.diag := rfl
@[simp] theorem setLineMode_reader : (setLineMode b s).reader = s.reader := rfl
@[simp] theorem setLineMode_input : (setLineMode b s).input = s.input := rfl
@[simp] theorem setLineMode_cfg : (setLineMode b s).cfg = s.cfg := rfl

end setLineMode

section takeByte
variable (s : State)

@[simp] theorem takeByte_acc : (takeByte s).acc = s.acc := rfl
@[simp] theorem takeByte_ip : (takeByte s).ip = s.ip := rfl
@[simp] theorem takeByte_run : (takeByte s).run = s.run := rfl
@[simp] theorem takeByte_fault : (takeByte s).fault = s.fault := rfl
@[simp] theorem takeByte_mem : (takeByte s).mem = s.mem := rfl
@[simp] theorem takeByte_lineMode : (takeByte s).lineMode = s.lineMode := rfl
@[simp] theorem takeByte_inPos : (takeByte s).inPos = s.inPos + 1 := rfl
@[simp] theorem takeByte_out : (takeByte s).out = s.out := rfl
@[simp] theorem takeByte_diag : (takeByte s).diag = s.diag := rfl
@[simp] theorem takeByte_reader : (takeByte s).reader = s.reader := rfl
@[simp] theorem takeByte_input : (takeByte s).input = s.input := rfl
@[simp] theorem takeByte_cfg : (takeByte s).cfg = s.cfg := rfl

end takeByte

section raiseFatal
variable (c : Cause) (n : Option Nat) (o : Origin) (s : State)

@[simp] theorem raiseFatal_acc : (raiseFatal c n o s).acc = s.acc := rfl
@[simp] theorem raiseFatal_ip : (raiseFatal c n o s).ip = s.ip := rfl
@[simp] theorem raiseFatal_run : (raiseFatal c n o s).run = .faulted := rfl
@[simp] theorem raiseFatal_fault : (raiseFatal c n o s).fault = some { cause := c, info := n, ip := s.ip, stage := o.stage, word := o.word } := rfl
@[simp] theorem raiseFatal_mem : (raiseFatal c n o s).mem = s.mem := rfl
@[simp] theorem raiseFatal_lineMode : (raiseFatal c n o s).lineMode = s.lineMode := rfl
@[simp] theorem raiseFatal_inPos : (raiseFatal c n o s).inPos = s.inPos := rfl
@[simp] theorem raiseFatal_out : (raiseFatal c n o s).out = s.out := rfl
@[simp] theorem raiseFatal_diag : (raiseFatal c n o s).diag = s.diag ++ Config.diagFatal c n := rfl
@[simp] theorem raiseFatal_reader : (raiseFatal c n o s).reader = s.reader := rfl
@[simp] theorem raiseFatal_input : (raiseFatal c n o s).input = s.input := rfl
@[simp] theorem raiseFatal_cfg : (raiseFatal c n o s).cfg = s.cfg := rfl

end raiseFatal

end Sys2Proof.Machine
end

