-- ==== Sys2Proof/Laws/Channel.lean ====
section
/-! SUPPORT. What the input protocol can do, said once: `readFrom` over one byte, and its three ends with their frame. -/

namespace Sys2Proof.Machine

@[simp] theorem readFrom_nil (r : Reader) (s : State) : readFrom [] r s = inputExhausted r s := rfl

theorem readFrom_goto {c : Byte} {cs : List Byte} {r r' : Reader} {s : State} (h : r.onByte s.cfg c = .goto r') :
    readFrom (c :: cs) r s = readFrom cs r' (takeByte s) := by
  rw [readFrom, h]

theorem readFrom_accept {c : Byte} {cs : List Byte} {r : Reader} {n : Int} {s : State}
    (h : r.onByte s.cfg c = .accept n) :
    readFrom (c :: cs) r s = .next (advance (setAcc (word n) (takeByte s))) := by
  rw [readFrom, h]

theorem readFrom_reject {c : Byte} {cs : List Byte} {r : Reader} {d : DiagKind} {s : State}
    (h : r.onByte s.cfg c = .reject d) :
    readFrom (c :: cs) r s = readFrom cs .lead (startAttempt (diagEmit (diagText s.cfg d) (takeByte s))) := by
  rw [readFrom, h]

/-- What no part of the protocol touches, and how far it moves the ports (44_io.md R165; 10_state.md R29 to R31). -/
structure ReadFrame (n : Nat) (s t : State) : Prop where
  mem : t.mem = s.mem
  lineMode : t.lineMode = s.lineMode
  input : t.input = s.input
  cfg : t.cfg = s.cfg
  out : s.out <+: t.out
  diag : s.diag <+: t.diag
  inPos_ge : s.inPos ≤ t.inPos
  inPos_le : t.inPos ≤ s.inPos + n

/-- The three ends of the protocol: a value, the end of input, or a wait with every supplied byte consumed. -/
inductive ReadEnd (n : Nat) (s t : State) : Prop where
  | value (ip : t.ip = s.ip + 1) (run : t.run = s.run) (fault : t.fault = s.fault) (reader : t.reader = s.reader)
  | eof (ended : s.input.ended = true) (acc : t.acc = s.acc) (ip : t.ip = s.ip) (run : t.run = .faulted)
      (fault : t.fault = some { cause := .inputEof, info := none, ip := s.ip, stage := .execute, word := some inpWord })
      (reader : t.reader = s.reader) (inPos : t.inPos = s.inPos + n)
  | wait (open_ : s.input.ended = false) (acc : t.acc = s.acc) (ip : t.ip = s.ip) (run : t.run = s.run)
      (fault : t.fault = s.fault) (reader : ∃ r, t.reader = some r) (inPos : t.inPos = s.inPos + n)

/-- Every answer of the protocol is a next state with this frame and one of these ends. -/
theorem readFrom_cases (bs : List Byte) (r : Reader) (s : State) :
    ∃ t, readFrom bs r s = .next t ∧ ReadFrame bs.length s t ∧ ReadEnd bs.length s t := by
  induction bs generalizing r s with
  | nil =>
    rw [readFrom_nil, inputExhausted]
    cases h : s.input.ended with
    | true =>
      exact ⟨_, if_pos rfl, ⟨rfl, rfl, rfl, rfl, List.prefix_refl _, List.prefix_append _ _, Nat.le_refl _, Nat.le_refl _⟩,
        .eof h rfl rfl rfl rfl rfl rfl⟩
    | false =>
      exact ⟨_, if_neg Bool.false_ne_true,
        ⟨rfl, rfl, rfl, rfl, List.prefix_refl _, List.prefix_refl _, Nat.le_refl _, Nat.le_refl _⟩,
        .wait h rfl rfl rfl rfl ⟨r, rfl⟩ rfl⟩
  | cons c cs ih =>
    -- a byte was taken and the protocol goes on from `u`, which differs from `s` only on the ports
    have goOn : ∀ (r' : Reader) (u : State), u.mem = s.mem → u.lineMode = s.lineMode → u.input = s.input →
        u.cfg = s.cfg → s.out <+: u.out → s.diag <+: u.diag → u.inPos = s.inPos + 1 → u.acc = s.acc → u.ip = s.ip →
        u.run = s.run → u.fault = s.fault → u.reader = s.reader →
        ∃ t, readFrom cs r' u = .next t ∧ ReadFrame (c :: cs).length s t ∧ ReadEnd (c :: cs).length s t := by
      intro r' u hm hl hi hc ho hd hp ha hip hr hf hre
      obtain ⟨t, ht, f, e⟩ := ih r' u
      refine ⟨t, ht, ⟨f.mem.trans hm, f.lineMode.trans hl, f.input.trans hi, f.cfg.trans hc, ho.trans f.out,
        hd.trans f.diag, ?_, ?_⟩, ?_⟩
      · have := f.inPos_ge; omega
      · have := f.inPos_le; simp only [List.length_cons]; omega
      · cases e with
        | value h1 h2 h3 h4 => exact .value (hip ▸ h1) (h2.trans hr) (h3.trans hf) (h4.trans hre)
        | eof h1 h2 h3 h4 h5 h6 h7 =>
          exact .eof (hi ▸ h1) (h2.trans ha) (h3.trans hip) h4 (hip ▸ h5) (h6.trans hre)
            (by simp only [List.length_cons]; omega)
        | wait h1 h2 h3 h4 h5 h6 h7 =>
          exact .wait (hi ▸ h1) (h2.trans ha) (h3.trans hip) (h4.trans hr) (h5.trans hf) h6
            (by simp only [List.length_cons]; omega)
    cases h : r.onByte s.cfg c with
    | goto r' =>
      rw [readFrom_goto h]
      exact goOn r' (takeByte s) rfl rfl rfl rfl (List.prefix_refl _) (List.prefix_refl _) rfl rfl rfl rfl rfl rfl
    | accept n =>
      rw [readFrom_accept h]
      exact ⟨_, rfl, ⟨rfl, rfl, rfl, rfl, List.prefix_refl _, List.prefix_refl _, by simp, by simp⟩, .value rfl rfl rfl rfl⟩
    | reject d =>
      rw [readFrom_reject h]
      exact goOn .lead _ rfl rfl rfl rfl (List.prefix_append _ _) (List.prefix_append _ _) rfl rfl rfl rfl rfl rfl

end Sys2Proof.Machine
end

