-- ==== Sys2Proof/Laws/Decode.lean ====
section
/-! SUPPORT. The two fields of a word, joined and taken apart again. -/

namespace Sys2Proof

/-- The number a word of two fields is (30_encoding.md R89). -/
theorem toNat_joinFields (opc : Opcode) (opd : Operand) :
    (joinFields opc opd).toNat = opc.toNat * 2 ^ 27 + opd.toNat := by
  unfold joinFields
  rw [BitVec.toNat_append, Nat.shiftLeft_eq, Nat.mul_comm, Nat.two_pow_add_eq_or_of_lt opd.isLt]

theorem opcodeField_toNat (w : Word) : (opcodeField w).toNat = w.toNat / 2 ^ 27 := by
  unfold opcodeField
  have := w.isLt
  rw [BitVec.extractLsb'_toNat, Nat.shiftRight_eq_div_pow]
  omega

theorem operandField_toNat (w : Word) : (operandField w).toNat = w.toNat % 2 ^ 27 := by
  unfold operandField
  rw [BitVec.extractLsb'_toNat, Nat.shiftRight_eq_div_pow]
  simp

@[simp] theorem opcodeField_joinFields (opc : Opcode) (opd : Operand) :
    opcodeField (joinFields opc opd) = opc := by
  apply BitVec.eq_of_toNat_eq
  rw [opcodeField_toNat, toNat_joinFields]
  have := opd.isLt
  omega

@[simp] theorem operandField_joinFields (opc : Opcode) (opd : Operand) :
    operandField (joinFields opc opd) = opd := by
  apply BitVec.eq_of_toNat_eq
  rw [operandField_toNat, toNat_joinFields]
  have := opd.isLt
  omega

/-- A word is its two fields (30_encoding.md R80). -/
theorem joinFields_fields (w : Word) : joinFields (opcodeField w) (operandField w) = w := by
  apply BitVec.eq_of_toNat_eq
  rw [toNat_joinFields, opcodeField_toNat, operandField_toNat]
  omega

end Sys2Proof
end

