-- ==== Sys2Proof/Laws/Memory.lean ====
section
/-! SUPPORT. The laws of the memory array: reading after writing, and that every operation keeps the canonical form and
the addresses' bound. -/

namespace Sys2Proof.Machine

theorem consCell_read (a : Nat) (v : Word) (m : Memory) (x : Nat) (h : Memory.read m a = Memory.unlisted) :
    (Memory.consCell a v m).read x = if x = a then v else m.read x := by
  unfold Memory.consCell
  by_cases hv : v = Memory.unlisted
  · by_cases hx : x = a
    · simp [hv, hx, h]
    · simp [hv, hx]
  · simp [hv, Memory.read]

/-- An index below every listed address is not listed. -/
theorem read_below {m : Memory} {a : Nat} (h : ∀ c ∈ m, a < c.1) : m.read a = Memory.unlisted := by
  induction m with
  | nil => rfl
  | cons c m ih =>
    obtain ⟨b, w⟩ := c
    have hb : a < b := h (b, w) (by simp)
    have : a ≠ b := by omega
    simp only [Memory.read, this, if_false]
    exact ih fun c hc => h c (by simp [hc])

/-- Reading after a write, at every index (20_memory.md R52, R54). -/
theorem read_write {m : Memory} (hm : m.wf) (a : Nat) (v : Word) (x : Nat) :
    (m.write a v).read x = if x = a then v else m.read x := by
  induction m with
  | nil => exact consCell_read a v [] x rfl
  | cons c m ih =>
    obtain ⟨b, w⟩ := c
    obtain ⟨hp, hv⟩ := hm
    rw [List.pairwise_cons] at hp
    have hbelow : ∀ y, y ≤ b → Memory.read m y = Memory.unlisted := fun y hy =>
      read_below fun d hd => Nat.lt_of_le_of_lt hy (hp.1 d hd)
    unfold Memory.write
    by_cases h1 : a < b
    · rw [if_pos h1]
      refine consCell_read a v _ x ?_
      have : a ≠ b := by omega
      simp [Memory.read, this, hbelow a (by omega)]
    · rw [if_neg h1]
      by_cases h2 : a = b
      · subst h2
        rw [if_pos rfl, consCell_read a v m x (hbelow a (Nat.le_refl a))]
        by_cases hx : x = a <;> simp [Memory.read, hx]
      · rw [if_neg h2]
        have ih' := ih ⟨hp.2, fun d hd => hv d (by simp [hd])⟩
        by_cases hx : x = b
        · have : ¬ x = a := by omega
          subst hx
          simp [Memory.read, this]
        · simp [Memory.read, hx, ih']

/-- Writing adds at most the written address. -/
theorem write_addr {m : Memory} {a : Nat} {v : Word} {c : MemCell} (h : c ∈ m.write a v) : c ∈ m ∨ c.1 = a := by
  have hcons : ∀ {n : Memory}, c ∈ Memory.consCell a v n → c ∈ n ∨ c.1 = a := by
    intro n hn
    unfold Memory.consCell at hn
    by_cases hv : v = Memory.unlisted
    · rw [if_pos hv] at hn; exact .inl hn
    · rw [if_neg hv, List.mem_cons] at hn
      rcases hn with rfl | hn
      · exact .inr rfl
      · exact .inl hn
  induction m with
  | nil => exact hcons h
  | cons d m ih =>
    obtain ⟨b, w⟩ := d
    unfold Memory.write at h
    by_cases h1 : a < b
    · rw [if_pos h1] at h; exact hcons h
    · rw [if_neg h1] at h
      by_cases h2 : a = b
      · rw [if_pos h2] at h
        exact (hcons h).imp_left fun hm => by simp [hm]
      · rw [if_neg h2, List.mem_cons] at h
        rcases h with rfl | h
        · exact .inl (by simp)
        · exact (ih h).imp_left fun hm => by simp [hm]

/-- A cell put in front of a canonical memory that starts above it leaves it canonical. -/
theorem consCell_wf {a : Nat} {v : Word} {m : Memory} (hm : m.wf) (ha : ∀ c ∈ m, a < c.1) :
    (Memory.consCell a v m).wf := by
  unfold Memory.consCell
  by_cases hv : v = Memory.unlisted
  · rw [if_pos hv]; exact hm
  · rw [if_neg hv]
    refine ⟨List.pairwise_cons.2 ⟨ha, hm.1⟩, fun c hc => ?_⟩
    rcases List.mem_cons.1 hc with rfl | hc
    · exact hv
    · exact hm.2 c hc

/-- A write keeps the canonical form. -/
theorem write_wf {m : Memory} (hm : m.wf) (a : Nat) (v : Word) : (m.write a v).wf := by
  induction m with
  | nil => exact consCell_wf hm (by simp)
  | cons d m ih =>
    obtain ⟨b, w⟩ := d
    have hp := List.pairwise_cons.1 hm.1
    have hm' : Memory.wf m := ⟨hp.2, fun c hc => hm.2 c (by simp [hc])⟩
    unfold Memory.write
    by_cases h1 : a < b
    · rw [if_pos h1]
      refine consCell_wf hm fun c hc => ?_
      rcases List.mem_cons.1 hc with rfl | hc
      · exact h1
      · exact Nat.lt_trans h1 (hp.1 c hc)
    · rw [if_neg h1]
      by_cases h2 : a = b
      · rw [if_pos h2]
        exact consCell_wf hm' fun c hc => h2 ▸ hp.1 c hc
      · rw [if_neg h2]
        have hw := ih hm'
        refine ⟨List.pairwise_cons.2 ⟨fun c hc => ?_, hw.1⟩, fun c hc => ?_⟩
        · rcases write_addr hc with h | h
          · exact hp.1 c h
          · show b < c.1
            omega
        · rcases List.mem_cons.1 hc with rfl | hc
          · exact hm.2 (b, w) (by simp)
          · exact hw.2 c hc

/-- The addresses of placed words. -/
theorem place_addr {ws : List Word} {a : Nat} {c : MemCell} (h : c ∈ Memory.place a ws) :
    a ≤ c.1 ∧ c.1 < a + ws.length := by
  induction ws generalizing a with
  | nil => simp [Memory.place] at h
  | cons w ws ih =>
    unfold Memory.place Memory.consCell at h
    have tail : c ∈ Memory.place (a + 1) ws → a ≤ c.1 ∧ c.1 < a + (w :: ws).length := fun hc => by
      have := ih hc
      simp only [List.length_cons]
      omega
    by_cases hv : w = Memory.unlisted
    · rw [if_pos hv] at h; exact tail h
    · rw [if_neg hv, List.mem_cons] at h
      rcases h with rfl | h
      · simp
      · exact tail h

/-- Placed words are in canonical form. -/
theorem place_wf (a : Nat) (ws : List Word) : (Memory.place a ws).wf := by
  induction ws generalizing a with
  | nil => exact ⟨by simp [Memory.place], by simp [Memory.place]⟩
  | cons w ws ih => exact consCell_wf (ih (a + 1)) fun c hc => Nat.lt_of_succ_le (place_addr hc).1

/-- Reset contents are in canonical form (20_memory.md R53). -/
theorem ofImage_wf (image : List Word) (len : Nat) : (Memory.ofImage image len).wf := place_wf 0 _

/-- Reset contents list no address from `len` on. -/
theorem ofImage_addr {image : List Word} {len : Nat} {c : MemCell} (h : c ∈ Memory.ofImage image len) :
    c.1 < len := by
  have := (place_addr h).2
  simp only [List.length_take] at this
  omega

/-- What placed words read as. -/
theorem read_place (a : Nat) (ws : List Word) (i : Nat) :
    (Memory.place a ws).read (a + i) = ws.getD i Memory.unlisted := by
  induction ws generalizing a i with
  | nil => simp [Memory.place, Memory.read]
  | cons w ws ih =>
    unfold Memory.place
    rw [consCell_read a w _ _ (read_below fun c hc => Nat.lt_of_succ_le (place_addr hc).1)]
    cases i with
    | zero => simp
    | succ i =>
      have : ¬ a + (i + 1) = a := by omega
      rw [if_neg this, show a + (i + 1) = a + 1 + i by omega, ih (a + 1) i]
      simp

end Sys2Proof.Machine
end

