-- ==== Sys2Proof/Laws/Ops.lean ====
section
/-! SUPPORT. What each shared operation can do, said once: the bounds-checked accesses, the operand forms and the
branch. -/

namespace Sys2Proof.Machine

@[simp] theorem effectiveAddress_toNat (a : Operand) : (effectiveAddress a).toNat = a.toNat := by
  have := a.isLt
  simp only [effectiveAddress, BitVec.toNat_setWidth]
  omega

@[simp] theorem branchTarget_toNat (a : Operand) : (branchTarget a).toNat = a.toNat := effectiveAddress_toNat a

theorem memRead_inRange {addr : Word} {s : State} (h : addr.toNat < s.cfg.memLen.val) :
    memRead addr s = some (s.mem.read addr.toNat) := if_pos h

theorem memRead_outOfRange {addr : Word} {s : State} (h : s.cfg.memLen.val ≤ addr.toNat) : memRead addr s = none :=
  if_neg (Nat.not_lt.2 h)

theorem memWrite_inRange {addr v : Word} {s : State} (h : addr.toNat < s.cfg.memLen.val) :
    memWrite addr v s = some { s with mem := s.mem.write addr.toNat v } := if_pos h

theorem memWrite_outOfRange {addr v : Word} {s : State} (h : s.cfg.memLen.val ≤ addr.toNat) :
    memWrite addr v s = none := if_neg (Nat.not_lt.2 h)

theorem readOperand_inRange {i : Instr} {a : Operand} {use : Word → State → State} {s : State}
    (h : a.toNat < s.cfg.memLen.val) :
    readOperand i a use s = .next (advance (use (s.mem.read a.toNat) s)) := by
  unfold readOperand
  rw [memRead_inRange (by simpa using h)]
  simp

theorem readOperand_outOfRange {i : Instr} {a : Operand} {use : Word → State → State} {s : State}
    (h : s.cfg.memLen.val ≤ a.toNat) :
    readOperand i a use s = .next (raiseFatal .rangeRead (some a.toNat) (.execute (encode i)) s) := by
  unfold readOperand
  rw [memRead_outOfRange (by simpa using h)]

theorem writeOperand_inRange {i : Instr} {a : Operand} {v : Word} {s : State} (h : a.toNat < s.cfg.memLen.val) :
    writeOperand i a v s = .next (advance { s with mem := s.mem.write a.toNat v }) := by
  unfold writeOperand
  rw [memWrite_inRange (by simpa using h)]
  simp

theorem writeOperand_outOfRange {i : Instr} {a : Operand} {v : Word} {s : State} (h : s.cfg.memLen.val ≤ a.toNat) :
    writeOperand i a v s = .next (raiseFatal .rangeWrite (some a.toNat) (.execute (encode i)) s) := by
  unfold writeOperand
  rw [memWrite_outOfRange (by simpa using h)]

/-- The two things an instruction that reads at its operand can do. -/
theorem readOperand_cases {i : Instr} {a : Operand} {use : Word → State → State} {s t : State}
    (h : readOperand i a use s = .next t) :
    (a.toNat < s.cfg.memLen.val ∧ t = advance (use (s.mem.read a.toNat) s)) ∨
    (s.cfg.memLen.val ≤ a.toNat ∧ t = raiseFatal .rangeRead (some a.toNat) (.execute (encode i)) s) := by
  rcases Nat.lt_or_ge a.toNat s.cfg.memLen.val with hlt | hge
  · rw [readOperand_inRange hlt] at h
    exact .inl ⟨hlt, (Host.Outcome.next.inj h).symm⟩
  · rw [readOperand_outOfRange hge] at h
    exact .inr ⟨hge, (Host.Outcome.next.inj h).symm⟩

/-- The two things an instruction that writes at its operand can do. -/
theorem writeOperand_cases {i : Instr} {a : Operand} {v : Word} {s t : State}
    (h : writeOperand i a v s = .next t) :
    (a.toNat < s.cfg.memLen.val ∧ t = advance { s with mem := s.mem.write a.toNat v }) ∨
    (s.cfg.memLen.val ≤ a.toNat ∧ t = raiseFatal .rangeWrite (some a.toNat) (.execute (encode i)) s) := by
  rcases Nat.lt_or_ge a.toNat s.cfg.memLen.val with hlt | hge
  · rw [writeOperand_inRange hlt] at h
    exact .inl ⟨hlt, (Host.Outcome.next.inj h).symm⟩
  · rw [writeOperand_outOfRange hge] at h
    exact .inr ⟨hge, (Host.Outcome.next.inj h).symm⟩

/-- A branch always answers a next state in which only `ip` differs. -/
theorem branchIf_eq (taken : Bool) (a : Operand) (s : State) :
    branchIf taken a s = .next { s with ip := if taken then branchTarget a else s.ip + 1 } := by
  cases taken <;> rfl

theorem isZero_iff (v : Word) : isZero v = true ↔ sval v = 0 := by simp [isZero]

theorem isNonNegative_iff (v : Word) : isNonNegative v = true ↔ 0 ≤ sval v := by simp [isNonNegative]

end Sys2Proof.Machine
end

