-- ==== Sys2Proof/Laws/Exec.lean ====
section
/-! SUPPORT. Each arm of `exec` as the shared operation it is, so that a proof rewrites by these and cites that
operation's lemmas. -/

namespace Sys2Proof.Machine

theorem exec_add (a : Operand) (s : State) :
    exec (.add a) s = readOperand (.add a) a (fun v t => setAcc (add32 t.acc v) t) s := rfl

theorem exec_sub (a : Operand) (s : State) :
    exec (.sub a) s = readOperand (.sub a) a (fun v t => setAcc (sub32 t.acc v) t) s := rfl

theorem exec_lda (a : Operand) (s : State) : exec (.lda a) s = readOperand (.lda a) a setAcc s := rfl

theorem exec_sta (a : Operand) (s : State) : exec (.sta a) s = writeOperand (.sta a) a s.acc s := rfl

theorem exec_bra (a : Operand) (s : State) : exec (.bra a) s = branchIf true a s := rfl

theorem exec_brz (a : Operand) (s : State) : exec (.brz a) s = branchIf (isZero s.acc) a s := rfl

theorem exec_brp (a : Operand) (s : State) : exec (.brp a) s = branchIf (isNonNegative s.acc) a s := rfl

theorem exec_inp (s : State) : exec .inp s = readFrom s.inputLeft .lead (startAttempt s) := rfl

theorem exec_out (s : State) : exec .out s = .next (advance (writeNum s.acc s)) := rfl

theorem exec_otc (s : State) : exec .otc s = .next (advance (writeChar s.acc s)) := rfl

/-- The three instructions that read at their operand, as one form: what each makes of the word it reads. -/
theorem readsAt_eq {i : Instr} {a : Operand} (h : i = .add a ∨ i = .sub a ∨ i = .lda a) :
    ∃ value : Word → State → Word, ∀ s, exec i s = readOperand i a (fun v t => setAcc (value v t) t) s := by
  rcases h with rfl | rfl | rfl
  · exact ⟨fun v t => add32 t.acc v, fun _ => rfl⟩
  · exact ⟨fun v t => sub32 t.acc v, fun _ => rfl⟩
  · exact ⟨fun v _ => v, fun _ => rfl⟩

end Sys2Proof.Machine
end

