-- ==== Sys2Proof/Laws/PerInstr.lean ====
section
/-! SUPPORT. Two facts of every instruction as syntax, one lemma per constructor: its pair may be packed, and its word
is the number the packing convention gives (30_encoding.md R89). -/

namespace Sys2Proof.Laws.PairWellFormed

/-- The pair of the instruction is in range (30_encoding.md R89). -/
def Statement (i : Instr) : Prop := i.wellFormed = true

theorem address_wellFormed (op : Nat) (a : Operand) (h : op ≤ 31) (hop : op ≠ 0) :
    RawPair.wellFormed { op := op, opd := (a.toNat : Int) } = true := by
  have := a.isLt
  simp only [RawPair.wellFormed, RawPair.opcodeInRange, RawPair.operandInRange, if_neg hop, Bool.and_eq_true,
    decide_eq_true_eq]
  omega

theorem hlt (opd : Operand) : Statement (.hlt opd) := by
  have := opd.isLt
  have h : -2 ^ 31 ≤ (opd.toNat : Int) ∧ (opd.toNat : Int) ≤ 2 ^ 31 - 1 := by omega
  exact Bool.and_eq_true_iff.2 ⟨rfl, decide_eq_true h⟩
theorem add (a : Operand) : Statement (.add a) := address_wellFormed 1 a (by decide) (by decide)
theorem sub (a : Operand) : Statement (.sub a) := address_wellFormed 2 a (by decide) (by decide)
theorem sta (a : Operand) : Statement (.sta a) := address_wellFormed 3 a (by decide) (by decide)
theorem lda (a : Operand) : Statement (.lda a) := address_wellFormed 5 a (by decide) (by decide)
theorem bra (a : Operand) : Statement (.bra a) := address_wellFormed 6 a (by decide) (by decide)
theorem brz (a : Operand) : Statement (.brz a) := address_wellFormed 7 a (by decide) (by decide)
theorem brp (a : Operand) : Statement (.brp a) := address_wellFormed 8 a (by decide) (by decide)
theorem inp : Statement .inp := rfl
theorem out : Statement .out := rfl
theorem otc : Statement .otc := rfl

end Sys2Proof.Laws.PairWellFormed

namespace Sys2Proof.Laws.WordNumber

/-- The word of the instruction is `op · 2^27 + a` as an unsigned number (30_encoding.md R89). -/
def Statement (i : Instr) : Prop := (encode i).toNat = i.opcodeNumber * 2 ^ 27 + i.operandNumber

theorem hlt (opd : Operand) : Statement (.hlt opd) := toNat_joinFields 0 opd
theorem add (a : Operand) : Statement (.add a) := toNat_joinFields 1 a
theorem sub (a : Operand) : Statement (.sub a) := toNat_joinFields 2 a
theorem sta (a : Operand) : Statement (.sta a) := toNat_joinFields 3 a
theorem lda (a : Operand) : Statement (.lda a) := toNat_joinFields 5 a
theorem bra (a : Operand) : Statement (.bra a) := toNat_joinFields 6 a
theorem brz (a : Operand) : Statement (.brz a) := toNat_joinFields 7 a
theorem brp (a : Operand) : Statement (.brp a) := toNat_joinFields 8 a
theorem inp : Statement .inp := toNat_joinFields 9 1
theorem out : Statement .out := toNat_joinFields 9 2
theorem otc : Statement .otc := toNat_joinFields 9 22

end Sys2Proof.Laws.WordNumber
end

