-- ==== Sys2Proof/Laws/Step.lean ====
section
/-! SUPPORT. What a step can do, said once: its answer by the fetched word, and the cases of a step that answers a next
state. -/

namespace Sys2Proof.Machine

/-- A step that fetched the word `w` answers by what `w` decodes to. -/
theorem step_fetched {s : State} {w : Word} (hrun : s.run = .running) (hreader : s.reader = none)
    (hfetch : fetch s = some w) :
    step s = match decode w with
      | .instr i => exec i s
      | .invalidOpcode opc => .next (raiseInvalidOpcode opc w s)
      | .invalidSelector sel => .next (raiseInvalidSelector sel w s) := by
  unfold step
  split
  · rename_i h; rw [hrun] at h; cases h
  · rename_i h; rw [hrun] at h; cases h
  · split
    · rename_i h; rw [hreader] at h; cases h
    · cases hd : decode w <;> simp only [hfetch, hd]

theorem step_unfetched {s : State} (hrun : s.run = .running) (hreader : s.reader = none) (hfetch : fetch s = none) :
    step s = .next (raiseFetchRange s) := by
  unfold step
  split
  · rename_i h; rw [hrun] at h; cases h
  · rename_i h; rw [hrun] at h; cases h
  · split
    · rename_i h; rw [hreader] at h; cases h
    · simp only [hfetch]

theorem step_waiting {s : State} {r : Reader} (hrun : s.run = .running) (hreader : s.reader = some r) :
    step s = resumeReading r s := by
  unfold step
  split
  · rename_i h; rw [hrun] at h; cases h
  · rename_i h; rw [hrun] at h; cases h
  · split
    · rename_i h; rw [hreader] at h; cases h; rfl
    · rename_i h; rw [hreader] at h; cases h

/-- The cases of a step that answers a next state. -/
inductive StepCase (s t : State) : Prop where
  | waiting (r : Reader) (hreader : s.reader = some r) (h : resumeReading r s = .next t)
  | unfetched (hreader : s.reader = none) (hfetch : fetch s = none) (h : t = raiseFetchRange s)
  | instr (hreader : s.reader = none) (w : Word) (i : Instr) (hfetch : fetch s = some w) (hdecode : decode w = .instr i)
      (h : exec i s = .next t)
  | invalidOpcode (hreader : s.reader = none) (w : Word) (opc : Opcode) (hfetch : fetch s = some w)
      (hdecode : decode w = .invalidOpcode opc) (h : t = raiseInvalidOpcode opc w s)
  | invalidSelector (hreader : s.reader = none) (w : Word) (sel : Operand) (hfetch : fetch s = some w)
      (hdecode : decode w = .invalidSelector sel) (h : t = raiseInvalidSelector sel w s)

theorem step_cases {s t : State} (h : step s = .next t) : s.run = .running ∧ StepCase s t := by
  have hrun : s.run = .running := by
    unfold step at h
    split at h
    · cases h
    · cases h
    · assumption
  refine ⟨hrun, ?_⟩
  cases hr : s.reader with
  | some r => exact .waiting r hr (step_waiting hrun hr ▸ h)
  | none =>
    cases hf : fetch s with
    | none =>
      rw [step_unfetched hrun hr hf] at h
      exact .unfetched hr hf (Host.Outcome.next.inj h).symm
    | some w =>
      rw [step_fetched hrun hr hf] at h
      cases hd : decode w with
      | instr i => rw [hd] at h; exact .instr hr w i hf hd h
      | invalidOpcode opc => rw [hd] at h; exact .invalidOpcode hr w opc hf hd (Host.Outcome.next.inj h).symm
      | invalidSelector sel => rw [hd] at h; exact .invalidSelector hr w sel hf hd (Host.Outcome.next.inj h).symm

end Sys2Proof.Machine
end

