-- ==== Sys2Proof/Tests/Slice0.lean ====
section
/-! SUPPORT. Tests of one step each, with expected results from 95_test_vectors.md and the rules' own examples; the
smoke test of WellFormed; decoding of written-out words; and a witness for the hypotheses of every obligation. -/

namespace Sys2Proof.Tests

open Sys2Proof.Machine

/-! ### Helpers -/

/-- The next state of an answer, if it is one. -/
def nextOf (r : Result) : Option State :=
  match r with
  | .next s => some s
  | .fault _ => none
  | .refused _ => none

/-- Parameters of the tests: the prompt is "P", the diagnostics "N" and "M", as 95_test_vectors.md abbreviates them. -/
def cfgOf (memLen : Fin (2 ^ 27 + 1)) : Config :=
  { Config.default with
    memLen := memLen, promptEnabled := true, promptText := [0x50], diagNotInteger := [0x4E], diagMalformed := [0x4D] }

/-- A reset state with `memLen` words, an accumulator and an instruction pointer. -/
def at_ (memLen : Fin (2 ^ 27 + 1)) (image : List Word) (acc ip : Word) : State :=
  { State.resetWith (cfgOf memLen) image { bytes := [], ended := true } with acc := acc, ip := ip }

/-- The one-word program INP over an input that has ended. -/
def reading (bytes : List Byte) : State :=
  State.resetWith (cfgOf 1) [0x48000001] { bytes := bytes, ended := true }

/-- The one-word program INP over an input the host may still supply. -/
def interactive (bytes : List Byte) : State :=
  State.resetWith (cfgOf 1) [0x48000001] { bytes := bytes, ended := false }

/-! ### WellFormed refuses each ill-formed pair (30_encoding.md R89) -/

theorem test_pair_opcode_above_31_refused : RawPair.wellFormed { op := 32, opd := 0 } = false := by decide
theorem test_pair_operand_above_27_bits_refused : RawPair.wellFormed { op := 1, opd := 134217728 } = false := by decide
theorem test_pair_negative_operand_refused : RawPair.wellFormed { op := 1, opd := -1 } = false := by decide
theorem test_data_word_above_range_refused : RawPair.wellFormed { op := 0, opd := 2147483648 } = false := by decide
theorem test_data_word_below_range_refused : RawPair.wellFormed { op := 0, opd := -2147483649 } = false := by decide
theorem test_pack_refuses_ill_formed : pack { op := 1, opd := 134217728 } = none := by decide
/-- R90: the pairs (9,1), (1,3), (9,2), (0,1). -/
theorem test_pack_end_to_end_words :
    [RawPair.mk 9 1, RawPair.mk 1 3, RawPair.mk 9 2, RawPair.mk 0 1].map pack =
      [some 0x48000001, some 0x08000003, some 0x48000002, some 0x00000001] := by decide

/-! ### Decoding of words written from 30_encoding.md R84 to R86 and R91 -/

theorem test_decode_hlt : decode 0x07FFFFFF = .instr (.hlt 0x7FFFFFF) := by decide
theorem test_decode_add : decode 0x08000003 = .instr (.add 3) := by decide
theorem test_decode_sub : decode 0x10000007 = .instr (.sub 7) := by decide
theorem test_decode_sta : decode 0x18000009 = .instr (.sta 9) := by decide
theorem test_decode_lda : decode 0x28000004 = .instr (.lda 4) := by decide
theorem test_decode_bra : decode 0x37FFFFFF = .instr (.bra 0x7FFFFFF) := by decide
theorem test_decode_brz : decode 0x38000009 = .instr (.brz 9) := by decide
theorem test_decode_brp : decode 0x40000002 = .instr (.brp 2) := by decide
theorem test_decode_inp : decode 0x48000001 = .instr .inp := by decide
theorem test_decode_out : decode 0x48000002 = .instr .out := by decide
theorem test_decode_otc : decode 0x48000016 = .instr .otc := by decide
theorem test_decode_opcode_4 : decode 0x20000000 = .invalidOpcode 4 := by decide
theorem test_decode_minus_one : decode 0xFFFFFFFF = .invalidOpcode 31 := by decide
theorem test_decode_selector_901 : decode 0x48000385 = .invalidSelector 901 := by decide
theorem test_decode_selector_not_reduced : decode 0x48100001 = .invalidSelector 0x100001 := by decide
theorem test_decodeTableWord_add : decodeTableWord 32 0x08000003 = some (.add 3) := by decide

/-! ### One step of each instruction (95_test_vectors.md section 2) -/

theorem test_hlt_ignores_operand :
    (nextOf (step (at_ 1 [0x07FFFFFF] 5 0))).map (fun t => (t.run, t.ip, t.acc)) = some (.halted, 0, 5) := by decide
/-- R106's example. -/
theorem test_hlt_keeps_ip :
    (nextOf (step (at_ 4 [0, 0, 0, 1] 0 3))).map (fun t => (t.run, t.ip)) = some (.halted, 3) := by decide

theorem test_add_wraps :
    (nextOf (step (at_ 2 [0x08000001, 1] 0x7FFFFFFF 0))).map (fun t => (sval t.acc, t.ip, t.run)) =
      some (-2147483648, 1, .running) := by decide
theorem test_add_out_of_range :
    (nextOf (step (at_ 2 [0x08000002] 9 0))).map (fun t => (t.run, t.fault, t.acc, t.ip)) =
      some (.faulted, some { cause := .rangeRead, info := some 2, ip := 0, stage := .execute, word := some 0x08000002 },
        9, 0) := by decide

theorem test_sub_wraps :
    (nextOf (step (at_ 2 [0x10000001, 1] 0x80000000 0))).map (fun t => sval t.acc) = some 2147483647 := by decide
theorem test_sub_negative :
    (nextOf (step (at_ 2 [0x10000001, 0xFFFFFFFD] 5 0))).map (fun t => sval t.acc) = some 8 := by decide

theorem test_sta_stores :
    (nextOf (step (at_ 2 [0x18000001] 0xFFFFFFFF 0))).map (fun t => (t.mem, t.acc, t.ip)) =
      some ([(0, 0x18000001), (1, 0xFFFFFFFF)], 0xFFFFFFFF, 1) := by decide
theorem test_sta_out_of_range :
    (nextOf (step (at_ 2 [0x18000002] 0xFFFFFFFF 0))).map (fun t => (t.fault.map (fun f => (f.cause, f.info)), t.mem)) =
      some (some (.rangeWrite, some 2), [(0, 0x18000002)]) := by decide

theorem test_lda_negative :
    (nextOf (step (at_ 2 [0x28000001, 0x80000000] 0 0))).map (fun t => (sval t.acc, t.ip)) = some (-2147483648, 1) := by
  decide
theorem test_lda_out_of_range :
    (nextOf (step (at_ 2 [0x28000002] 4 0))).map (fun t => (t.run, t.acc, t.ip)) = some (.faulted, 4, 0) := by decide

theorem test_bra_back :
    (nextOf (step (at_ 6 [0, 0, 0, 0, 0, 0x30000000] 0 5))).map (fun t => t.ip) = some 0 := by decide
theorem test_bra_target_unchecked :
    (nextOf (step (at_ 6 [0x30000064] 0 0))).map (fun t => (t.ip, t.run)) = some (100, .running) := by decide

theorem test_brz_taken_on_zero :
    (nextOf (step (at_ 2 [0, 0x38000009] 0 1))).map (fun t => t.ip) = some 9 := by decide
theorem test_brz_not_taken_on_minimum :
    (nextOf (step (at_ 2 [0, 0x38000009] 0x80000000 1))).map (fun t => t.ip) = some 2 := by decide

theorem test_brp_taken_on_zero :
    (nextOf (step (at_ 2 [0, 0x40000009] 0 1))).map (fun t => t.ip) = some 9 := by decide
theorem test_brp_not_taken_on_minus_one :
    (nextOf (step (at_ 2 [0, 0x40000009] 0xFFFFFFFF 1))).map (fun t => t.ip) = some 2 := by decide

/-- `"-2147483648\n"`. -/
theorem test_out_minimum :
    (nextOf (step (at_ 1 [0x48000002] 0x80000000 0))).map (fun t => (t.out, t.lineMode)) =
      some ([0x2D, 0x32, 0x31, 0x34, 0x37, 0x34, 0x38, 0x33, 0x36, 0x34, 0x38, 0x0A], false) := by decide
/-- `"-42"` in line mode. -/
theorem test_out_in_line_mode :
    (nextOf (step { at_ 1 [0x48000002] 0xFFFFFFD6 0 with lineMode := true })).map (fun t => (t.out, t.lineMode)) =
      some ([0x2D, 0x34, 0x32], true) := by decide

theorem test_otc_266_is_lf :
    (nextOf (step { at_ 1 [0x48000016] 266 0 with lineMode := true })).map (fun t => (t.out, t.lineMode)) =
      some ([0x0A], false) := by decide
theorem test_otc_minus_one :
    (nextOf (step (at_ 1 [0x48000016] 0xFFFFFFFF 0))).map (fun t => (t.out, t.lineMode)) = some ([0xFF], true) := by decide

/-- `"\t-17\t\n"` gives -17 and consumes 6 bytes, with one prompt. -/
theorem test_inp_negative_with_blanks :
    (nextOf (step (reading [0x09, 0x2D, 0x31, 0x37, 0x09, 0x0A]))).map (fun t => (sval t.acc, t.inPos, t.out, t.diag, t.ip)) =
      some (-17, 6, [0x50], [], 1) := by decide
/-- `"42x\n7\n"` gives 7 after one MF, with two prompts. -/
theorem test_inp_retries_after_trailing_content :
    (nextOf (step (reading [0x34, 0x32, 0x78, 0x0A, 0x37, 0x0A]))).map (fun t => (sval t.acc, t.inPos, t.out, t.diag)) =
      some (7, 6, [0x50, 0x50], [0x4D]) := by decide

/-! ### Other vectors -/

/-- `"2147483648\n1\n"`: an oversized token is malformed (section 2.7). -/
theorem test_inp_oversized :
    (nextOf (step (reading [0x32, 0x31, 0x34, 0x37, 0x34, 0x38, 0x33, 0x36, 0x34, 0x38, 0x0A, 0x31, 0x0A]))).map
      (fun t => (sval t.acc, t.inPos, t.diag)) = some (1, 13, [0x4D]) := by decide
/-- `"- 5\n3\n"`: a sign with no digit is no token (section 2.7). -/
theorem test_inp_lone_sign :
    (nextOf (step (reading [0x2D, 0x20, 0x35, 0x0A, 0x33, 0x0A]))).map (fun t => (sval t.acc, t.inPos, t.diag)) =
      some (3, 6, [0x4E]) := by decide
/-- `"42"`: no LF after the token (section 2.7). -/
theorem test_inp_end_of_input :
    (nextOf (step (reading [0x34, 0x32]))).map (fun t => t.fault) =
      some (some { cause := .inputEof, info := none, ip := 0, stage := .execute, word := some 0x48000001 }) := by decide
theorem test_inp_end_of_input_keeps_acc :
    (nextOf (step (reading [0x34, 0x32]))).map (fun t => (t.run, t.acc, t.ip, t.inPos, t.out)) =
      some (.faulted, 0, 0, 2, [0x50]) := by decide
/-- L1-8. -/
theorem test_invalid_opcode_4 :
    (nextOf (step (at_ 2 [0x20000000, 0x48000002] 0 0))).map (fun t => (t.run, t.fault, t.out)) =
      some (.faulted, some { cause := .invalidOpcode, info := some 4, ip := 0, stage := .execute, word := some 0x20000000 },
        []) := by decide
/-- Section 2.1: `MEM_LEN` = 0. -/
theorem test_fetch_without_memory :
    (nextOf (step (at_ 0 [] 0 0))).map (fun t => t.fault) =
      some (some { cause := .rangeRead, info := some 0, ip := 0, stage := .fetch, word := none }) := by decide
/-- L1-2: the image [1, 2, 3, 4] with `MEM_LEN` = 2, and [0x48000002] with `MEM_LEN` = 3. -/
theorem test_reset_contents :
    ((List.range 3).map (at_ 2 [1, 2, 3, 4] 0 0).wordAt, (List.range 4).map (at_ 3 [0x48000002] 0 0).wordAt) =
      ([some 1, some 2, none], [some 0x48000002, some 0, some 0, none]) := by decide
/-- 60_exceptions.md R203. -/
theorem test_cause_codes :
    [Cause.rangeRead, .rangeWrite, .invalidOpcode, .invalidIoSelector, .inputEof].map causeCode = [1, 2, 3, 4, 5] := by decide
/-- The model's wait (log 9): `"4"` supplied, then `"2\n"`. -/
theorem test_inp_waits_and_resumes :
    ((nextOf (step (interactive [0x34]))).map (fun t => (t.reader, t.inPos, t.ip)),
      ((nextOf (step (interactive [0x34]))).bind (fun t => nextOf (step (t.hostSupply [0x32, 0x0A])))).map
        (fun t => (sval t.acc, t.inPos, t.ip, t.reader))) =
      (some (some (.digits false 4), 1, 0), some (42, 3, 1, none)) := by decide
theorem test_first_step_after_reset :
    (nextOf (step (State.reset.withFetchWord 32 0x08000003))).map (fun t => (t.acc, t.ip)) = some (0, 1) := by decide

/-! ### Witnesses: each obligation's hypotheses are met, clause by clause -/

theorem witness_DecodeFollowsOpcodeMap :
    ((0x4FFFFFFF : Word).toNat / 2 ^ 27 = 9 ∧ (0x7FFFFFF : Operand).toNat = (0x4FFFFFFF : Word).toNat % 2 ^ 27 ∧
      (0x7FFFFFF : Operand) ≠ 1) ∧
    ((0x48000016 : Word).toNat / 2 ^ 27 = 9 ∧ (22 : Operand).toNat = (0x48000016 : Word).toNat % 2 ^ 27) ∧
    ((31 : Opcode).toNat = (0xFFFFFFFF : Word).toNat / 2 ^ 27 ∧ 10 ≤ (31 : Opcode).toNat) ∧
    ((4 : Opcode).toNat = (0x20000000 : Word).toNat / 2 ^ 27) ∧
    [0x00000000, 0x08000000, 0x10000000, 0x18000000, 0x28000000, 0x30000000, 0x38000000, 0x40000000].map
      (fun w : Word => w.toNat / 2 ^ 27) = [0, 1, 2, 3, 5, 6, 7, 8] := by decide

theorem witness_EncodeOfDecode : ∃ w i, decode w = .instr i := ⟨0x37FFFFFF, .bra 0x7FFFFFF, by decide⟩

theorem witness_PackingConvention :
    pack { op := 31, opd := 134217727 } = some 0xFFFFFFFF ∧ pack { op := 0, opd := -1 } = some 0xFFFFFFFF := by decide

theorem witness_DataWordsExecute :
    (∃ s : State, ∃ w, s.run = .running ∧ s.reader = none ∧ s.wordAt s.ip.toNat = some w ∧ 0 ≤ sval w ∧ sval w < 2 ^ 27) ∧
    (∃ s : State, ∃ w, s.run = .running ∧ s.reader = none ∧ s.wordAt s.ip.toNat = some w ∧ decode w = .instr (.add 0)) ∧
    (∃ s : State, ∃ w, s.run = .running ∧ s.reader = none ∧ s.wordAt s.ip.toNat = some w ∧ sval w < 0) :=
  ⟨⟨at_ 1 [0x07FFFFFF] 0 0, 0x07FFFFFF, by decide⟩, ⟨at_ 1 [0x08000000] 0 0, 0x08000000, by decide⟩,
    ⟨at_ 1 [0x80000000] 0 0, 0x80000000, by decide⟩⟩

theorem witness_StepRunsTheDecodedInstruction :
    (∃ s : State, ∃ w i, s.run = .running ∧ s.reader = none ∧ s.wordAt s.ip.toNat = some w ∧ decode w = .instr i) ∧
    (∃ s : State, ∃ r, s.run = .running ∧ s.reader = some r) :=
  ⟨⟨at_ 1 [0x48000002] 0 0, 0x48000002, .out, by decide⟩, ⟨{ interactive [] with reader := some .lead }, .lead, by decide⟩⟩

theorem witness_FetchOutOfRangeFaults :
    ∃ s : State, s.run = .running ∧ s.reader = none ∧ s.cfg.memLen.val ≤ s.ip.toNat :=
  ⟨at_ 1 [0x48000002] 0 1, by decide⟩

theorem witness_InvalidOpcodeFaults :
    (∃ s : State, ∃ w : Word, s.run = .running ∧ s.reader = none ∧ s.wordAt s.ip.toNat = some w ∧ w.toNat / 2 ^ 27 = 4) ∧
    (∃ s : State, ∃ w : Word, s.run = .running ∧ s.reader = none ∧ s.wordAt s.ip.toNat = some w ∧ 10 ≤ w.toNat / 2 ^ 27) :=
  ⟨⟨at_ 1 [0x20000000] 0 0, 0x20000000, by decide⟩, ⟨at_ 1 [0x50000000] 0 0, 0x50000000, by decide⟩⟩

theorem witness_InvalidSelectorFaults :
    ∃ s : State, ∃ w : Word, s.run = .running ∧ s.reader = none ∧ s.wordAt s.ip.toNat = some w ∧ w.toNat / 2 ^ 27 = 9 ∧
      w.toNat % 2 ^ 27 ≠ 1 ∧ w.toNat % 2 ^ 27 ≠ 2 ∧ w.toNat % 2 ^ 27 ≠ 22 :=
  ⟨at_ 1 [0x48000003] 0 0, 0x48000003, by decide⟩

theorem witness_StoppedStatesTakeNoStep :
    (∃ s : State, s.run = .halted) ∧ ∃ s : State, s.run = .faulted :=
  ⟨⟨{ State.reset with run := .halted }, rfl⟩, ⟨{ State.reset with run := .faulted }, rfl⟩⟩

theorem witness_RunningStepAnswersNext : State.reset.run = .running := rfl

/-- The last word in range and the first address out of range, for the operands of ADD, SUB, LDA and STA. -/
theorem witness_AddResult_SubResult_LdaResult_StaResult :
    (at_ 2 [0, 7] 5 0).wordAt (1 : Operand).toNat = some 7 ∧ (1 : Operand).toNat < (at_ 2 [0, 7] 5 0).cfg.memLen.val ∧
    (at_ 2 [0, 7] 5 0).cfg.memLen.val ≤ (2 : Operand).toNat ∧ (at_ 2 [0, 7] 5 0).mem.wf ∧
    (1 : Operand).toNat = ((at_ 2 [0, 7] 5 0).ip + 1).toNat := by decide

theorem witness_ArithmeticWraps :
    ∃ (a : Operand) (v : Word) (s : State), s.wordAt a.toNat = some v ∧ 2 ^ 31 ≤ sval s.acc + sval v ∧
      sval s.acc - sval v < 2 ^ 31 :=
  ⟨1, 1, at_ 2 [0, 1] 0x7FFFFFFF 0, by decide⟩

theorem witness_BraResult_BrzResult_BrpResult :
    (∃ s : State, ∃ a : Operand, s.run = .running ∧ s.reader = none ∧ s.cfg.memLen.val ≤ a.toNat ∧ sval s.acc = 0) ∧
    (∃ s : State, sval s.acc ≠ 0 ∧ sval s.acc < 0) :=
  ⟨⟨at_ 6 [] 0 0, 6, by decide⟩, ⟨at_ 6 [] 0xFFFFFFFF 0, by decide⟩⟩

theorem witness_OutResult :
    (∃ s : State, s.lineMode = true) ∧ ∃ s : State, s.lineMode = false :=
  ⟨⟨{ State.reset with lineMode := true }, rfl⟩, ⟨State.reset, rfl⟩⟩

theorem witness_OtcResult :
    (∃ (s : State) (b : Byte), b.toNat = s.acc.toNat % 256 ∧ b = 0x0A) ∧
    ∃ (s : State) (b : Byte), b.toNat = s.acc.toNat % 256 ∧ b ≠ 0x0A :=
  ⟨⟨at_ 1 [] 266 0, 0x0A, by decide⟩, ⟨at_ 1 [] 0xFFFFFFFF 0, 0xFF, by decide⟩⟩

/-- `" -2147483648\t\n"`: the least value, with blanks around it. -/
theorem acceptedLine_minimum :
    AcceptedLine true
      [0x20, 0x2D, 0x32, 0x31, 0x34, 0x37, 0x34, 0x38, 0x33, 0x36, 0x34, 0x38, 0x09, 0x0A] (-2147483648) :=
  ⟨[0x20], [0x2D], [0x32, 0x31, 0x34, 0x37, 0x34, 0x38, 0x33, 0x36, 0x34, 0x38], [0x09], by decide, by decide,
    .inr (.inl rfl), ⟨by decide, by decide⟩, by decide, by decide, by decide⟩

/-- `"+5\n"`, where '+' is a sign. -/
theorem acceptedLine_plus : AcceptedLine true [0x2B, 0x35, 0x0A] 5 :=
  ⟨[], [0x2B], [0x35], [], by decide, by decide, .inr (.inr ⟨rfl, rfl⟩), ⟨by decide, by decide⟩, by decide, by decide, by decide⟩

theorem witness_InpAcceptsLine :
    ∃ (s : State) (line rest : List Byte) (n : Int), s.inputLeft = line ++ rest ∧ AcceptedLine s.cfg.acceptPlus line n :=
  ⟨reading [0x20, 0x2D, 0x32, 0x31, 0x34, 0x37, 0x34, 0x38, 0x33, 0x36, 0x34, 0x38, 0x09, 0x0A, 0x78], _, [0x78],
    -2147483648, by decide, acceptedLine_minimum⟩

/-- `"-\n"`, a sign with nothing after it, and `"abc\n"`. -/
theorem witness_InpRetriesAfterNoToken :
    (∃ (s : State) (line rest : List Byte), s.inputLeft = line ++ rest ∧ NoTokenLine s.cfg.acceptPlus line) ∧
    NoTokenLine true [0x61, 0x62, 0x63, 0x0A] :=
  ⟨⟨reading [0x2D, 0x0A], [0x2D, 0x0A], [], by decide, [], [0x2D], [], by decide, by decide, .inr (.inl rfl), by decide,
      by decide, by simp⟩,
    [], [], [0x61, 0x62, 0x63], by decide, by decide, .inl rfl, by decide, by decide, by simp; decide⟩

/-- `"12 34\n"`, and `"2147483648\n"`, the least value out of range. -/
theorem witness_InpRetriesAfterBadToken :
    (∃ (s : State) (line rest : List Byte), s.inputLeft = line ++ rest ∧ BadTokenLine s.cfg.acceptPlus line) ∧
    BadTokenLine true [0x32, 0x31, 0x34, 0x37, 0x34, 0x38, 0x33, 0x36, 0x34, 0x38, 0x0A] :=
  ⟨⟨reading [0x31, 0x32, 0x20, 0x33, 0x34, 0x0A], [0x31, 0x32, 0x20, 0x33, 0x34, 0x0A], [], by decide,
      [], [], [0x31, 0x32], [0x20], [0x33, 0x34], by decide, by decide, .inl rfl, ⟨by decide, by decide⟩, by decide,
      by decide, by decide, by simp; decide⟩,
    [], [], [0x32, 0x31, 0x34, 0x37, 0x34, 0x38, 0x33, 0x36, 0x34, 0x38], [], [], by decide, by decide, .inl rfl,
    ⟨by decide, by decide⟩, by decide, by decide, by decide, by simp⟩

theorem witness_InpOnBlankLine :
    (∃ (s : State) (line rest : List Byte), s.inputLeft = line ++ rest ∧ BlankLine line ∧ s.cfg.blankLineSkipped = false) ∧
    (∃ (s : State) (line rest : List Byte), s.inputLeft = line ++ rest ∧ BlankLine line ∧ s.cfg.blankLineSkipped = true) :=
  ⟨⟨reading [0x20, 0x0A], [0x20, 0x0A], [], by decide, ⟨[0x20], by decide, by decide⟩, by decide⟩,
    ⟨{ reading [0x0A] with cfg := { cfgOf 1 with blankLineSkipped := true } }, [0x0A], [], by decide,
      ⟨[], by decide, by decide⟩, by decide⟩⟩

theorem witness_InpComputesReadNum :
    (∃ s : State, ∃ n rest, (readNum s.cfg s.inputLeft).result = some (n, rest)) ∧
    (∃ s : State, (readNum s.cfg s.inputLeft).result = none ∧ s.input.ended = true) ∧
    (∃ s : State, (readNum s.cfg s.inputLeft).result = none ∧ s.input.ended = false) :=
  ⟨⟨reading [0x61, 0x0A, 0x35, 0x0A, 0x36], 5, [0x36], by decide⟩, ⟨reading [0x34, 0x32], by decide⟩,
    ⟨interactive [0x34, 0x32], by decide⟩⟩

theorem witness_InpEndsOnFiniteInput : ∃ s : State, s.input.ended = true ∧ s.InputOk :=
  ⟨reading [0x34, 0x32], by decide, by unfold State.InputOk; decide⟩

theorem witness_WaitingInpIsResumedExactly :
    ∃ s t : State, s.run = .running ∧ s.InputOk ∧ s.input.ended = false ∧ step s = .next t ∧ t.reader ≠ none :=
  ⟨interactive [0x34], _, rfl, by unfold State.InputOk; decide, rfl, rfl, by decide⟩

theorem witness_WaitingInpStaysWaiting :
    ∃ (s : State) (r : Reader), s.run = .running ∧ s.reader = some r ∧ s.inputLeft = [] ∧ s.input.ended = false :=
  ⟨{ interactive [] with reader := some (.sign true) }, .sign true, by decide⟩

/-- `"abc\n5\n"`: a rejected line and an accepted one. -/
theorem plainInput_abc_5 : PlainInput [0x61, 0x62, 0x63, 0x0A, 0x35, 0x0A] := by
  refine ⟨[[0x61, 0x62, 0x63, 0x0A], [0x35, 0x0A]], by decide, fun l hl => ?_⟩
  rcases List.mem_cons.1 hl with rfl | hl
  · exact .inr ⟨[], 0x61, [0x62, 0x63], by decide, by decide, by decide, by decide, by decide, by decide, by decide, by decide⟩
  · rw [List.mem_singleton] at hl
    subst hl
    exact .inl ⟨5, [], [], [0x35], [], by decide, by decide, .inl rfl, ⟨by decide, by decide⟩, by decide, by decide, by decide⟩

theorem witness_PlainInputsDoNotDependOnOpenParameters :
    ∃ s t : State, PlainInput s.inputLeft ∧ exec .inp s = .next t :=
  ⟨reading [0x61, 0x62, 0x63, 0x0A, 0x35, 0x0A], _, plainInput_abc_5, rfl⟩

theorem witness_InpReadsBackWhatOutPrints :
    ∃ (u t s : State) (printed rest : List Byte), u.lineMode = false ∧ exec .out u = .next t ∧
      t.out = u.out ++ printed ∧ s.inputLeft = printed ++ rest :=
  ⟨at_ 1 [] 0xFFFFFFFA 0, _, reading [0x2D, 0x36, 0x0A, 0x78], [0x2D, 0x36, 0x0A], [0x78], rfl, rfl, by decide, by decide⟩

theorem witness_MemoryReadAfterWrite :
    ∃ (s t : State) (x v : Word), s.mem.wf ∧ memWrite x v s = some t :=
  ⟨at_ 2 [5, 6] 0 0, _, 1, 0, by decide, rfl⟩

theorem witness_CanonicalMemoryIsUnique : ∃ m : Memory, m.wf ∧ m ≠ [] := ⟨[(1, 5), (3, 6)], by decide⟩

theorem witness_ResetMemoryIsPaddedImage :
    (2 < (cfgOf 3).memLen.val ∧ ¬ 2 < [(1 : Word), 2].length) ∧ (cfgOf 3).memLen.val ≤ 3 := by decide

theorem witness_ResetState :
    (cfgOf 0).memLen.val = 0 ∧ 0 < (cfgOf 1).memLen.val ∧ decode ([0x48000002].headD 0) = .instr .out := by decide

theorem witness_StoreIsSeenByNextFetch :
    ∃ (s t : State) (a : Operand) (i : Instr), s.mem.wf ∧ s.run = .running ∧ s.reader = none ∧
      exec (.sta a) s = .next t ∧ t.run = .running ∧ t.ip.toNat = a.toNat ∧ decode s.acc = .instr i :=
  ⟨at_ 2 [0x18000001] 0x48000002 0, _, 1, .out, by decide, rfl, rfl, rfl, by decide, by decide, by decide⟩

theorem witness_LoadAndArithmeticFrame :
    ∃ (i : Instr) (a : Operand) (s t : State), Instr.readsAt i a ∧ exec i s = .next t :=
  ⟨.lda 1, 1, at_ 2 [0, 5] 0 0, _, .inr (.inr rfl), rfl⟩

theorem witness_StoreFrame : ∃ (a : Operand) (s t : State), s.mem.wf ∧ exec (.sta a) s = .next t :=
  ⟨1, at_ 2 [5] 3 0, _, by decide, rfl⟩

theorem witness_BranchAndHaltFrame :
    ∃ (a : Operand) (s t u v w : State), exec (.bra a) s = .next t ∧ exec (.brz a) s = .next u ∧
      exec (.brp a) s = .next v ∧ exec (.hlt a) s = .next w :=
  ⟨3, at_ 2 [5] 3 0, _, _, _, _, rfl, rfl, rfl, rfl⟩

theorem witness_OutputFrame : ∃ s t u : State, exec .out s = .next t ∧ exec .otc s = .next u :=
  ⟨at_ 2 [5] 3 0, _, _, rfl, rfl⟩

theorem witness_InputFrame :
    (∃ s t : State, s.run = .running ∧ s.reader = none ∧ exec .inp s = .next t ∧ Completed t) ∧
    (∃ s t : State, s.run = .running ∧ s.reader = none ∧ exec .inp s = .next t ∧ ¬ Completed t ∧ t.run = .faulted) ∧
    (∃ s t : State, s.run = .running ∧ s.reader = none ∧ exec .inp s = .next t ∧ ¬ Completed t ∧ t.run ≠ .faulted) :=
  ⟨⟨reading [0x35, 0x0A], _, rfl, rfl, rfl, by unfold Completed; decide⟩,
    ⟨reading [0x35], _, rfl, rfl, rfl, by unfold Completed; decide, by decide⟩,
    ⟨interactive [0x35], _, rfl, rfl, rfl, by unfold Completed; decide, by decide⟩⟩

theorem witness_NextIpTable :
    ∃ (i : Instr) (s t : State), s.run = .running ∧ s.reader = none ∧ exec i s = .next t ∧ Completed t :=
  ⟨.brz 9, at_ 2 [0, 5] 0 1, _, rfl, rfl, rfl, by unfold Completed; decide⟩

theorem witness_AccumulatorHasFourSources : ∃ (i : Instr) (s t : State), exec i s = .next t ∧ t.acc ≠ s.acc :=
  ⟨.sub 1, at_ 2 [0, 5] 0 0, _, rfl, by decide⟩

/-- A step, of ADD at address 0 of a canonical memory: it meets the hypotheses of every statement on all steps. -/
theorem witness_steps :
    ∃ s t : State, s.mem.wf ∧ s.reader = none ∧ s.InputOk ∧ s.nextInstr ≠ some .otc ∧ step s = .next t :=
  ⟨at_ 2 [0x08000001, 5] 0 0, _, by decide, rfl, by unfold State.InputOk; decide, by decide, rfl⟩

theorem witness_OnlyOtcWritesLineMode :
    ∃ s t : State, step s = .next t ∧ (s.reader ≠ none ∨ s.nextInstr ≠ some .otc) :=
  ⟨at_ 1 [0x48000002] 0 0, _, rfl, .inr (by decide)⟩

theorem witness_OnlyStaWritesMemory : ∃ s t : State, s.mem.wf ∧ step s = .next t ∧ t.mem ≠ s.mem :=
  ⟨at_ 2 [0x18000001] 5 0, _, by decide, rfl, by decide⟩

theorem witness_PortsOnlyGrow :
    ∃ s t : State, step s = .next t ∧ s.InputOk ∧ s.reader = none ∧ s.nextInstr ≠ some .inp ∧ s.nextInstr ≠ some .out ∧
      s.nextInstr ≠ some .otc ∧ t.run ≠ .faulted :=
  ⟨at_ 2 [0x08000001, 5] 0 0, _, rfl, by unfold State.InputOk; decide, rfl, by decide, by decide, by decide, by decide⟩

theorem witness_StepsKeepParametersAndInput_DiagnosticsInfluenceNothing_HaltedOnlyByHlt :
    ∃ s t : State, step s = .next t ∧ t.halted = true := ⟨at_ 1 [0x00000001] 0 0, _, rfl, by decide⟩

theorem witness_FaultsArePrecise :
    (∃ s t : State, s.InputOk ∧ step s = .next t ∧ t.run = .faulted ∧ t.fault.map (·.cause) = some .inputEof) ∧
    (∃ s t : State, s.InputOk ∧ step s = .next t ∧ t.run = .faulted ∧ t.fault.map (·.cause) = some .rangeWrite) :=
  ⟨⟨reading [0x61, 0x0A], _, by unfold State.InputOk; decide, rfl, by decide, by decide⟩,
    ⟨at_ 2 [0x18000002] 5 0, _, by unfold State.InputOk; decide, rfl, by decide, by decide⟩⟩

theorem witness_FatalConditionsExactly :
    (∃ s t : State, s.reader = none ∧ step s = .next t ∧ t.run = .faulted) ∧
    (∃ s t : State, s.reader = none ∧ step s = .next t ∧ t.run ≠ .faulted) :=
  ⟨⟨at_ 1 [0x48000003] 5 0, _, rfl, rfl, by decide⟩, ⟨at_ 1 [0x48000002] 5 0, _, rfl, rfl, by decide⟩⟩

/-- A reset state meets the invariant. -/
theorem reading_inv (bytes : List Byte) : (reading bytes).Inv where
  memOk := ⟨(by decide : Memory.wf [(0, 0x48000001)]),
    (by decide : ∀ c ∈ ([(0, 0x48000001)] : Memory), c.1 < 1)⟩
  ipOk := (by decide : (0 : Word).toNat ≤ 2 ^ 27)
  inputOk := Nat.zero_le _
  readerOk := fun h => by cases h
  faultOk := fun h => by cases h

theorem witness_StepKeepsTheInvariant : ∃ s t : State, s.Inv ∧ step s = .next t :=
  ⟨reading [0x35, 0x0A], _, reading_inv _, rfl⟩

theorem witness_HostActsOnTheInputPortOnly :
    (reading []).input.ended = true ∧ (interactive []).input.ended = false ∧ (interactive []).InputOk ∧ (reading []).Inv :=
  ⟨rfl, rfl, Nat.zero_le _, reading_inv _⟩

theorem witness_PlacedWordIsRun :
    decodeTableWord 32 0x48000016 = some .otc ∧ State.reset.mem.wf := by decide

end Sys2Proof.Tests
end

section
/-! What a word address reads as right after reset (20_memory.md R53), from the laws of placed words. -/

namespace Sys2Proof.Machine

/-- Reset memory at an index below the length: the image's word, or the zero padding (20_memory.md R53). -/
theorem read_ofImage_of_lt (image : List Word) {len i : Nat} (h : i < len) :
    (Memory.ofImage image len).read i = image.getD i Memory.unlisted := by
  have placed := read_place 0 (image.take len) i
  rw [Nat.zero_add] at placed
  simp only [Memory.ofImage, placed, List.getD_eq_getElem?_getD, List.getElem?_take_of_lt h]

/-- Below `MEM_LEN` an index names the word memory holds there. -/
theorem wordAt_of_lt {s : State} {i : Nat} (h : i < s.cfg.memLen.val) : s.wordAt i = some (s.mem.read i) :=
  if_pos h

/-- From `MEM_LEN` on no index names a word. -/
theorem wordAt_of_ge {s : State} {i : Nat} (h : s.cfg.memLen.val ≤ i) : s.wordAt i = none :=
  if_neg (Nat.not_lt.2 h)

/-- Settles O39: below `MEM_LEN` by what placed words read as, within the image and past its end. -/
theorem resetMemoryIsPaddedImage : Obligations.ResetMemoryIsPaddedImage := by
  intro cfg image input i
  refine ⟨fun below => ?_, wordAt_of_ge (s := State.resetWith cfg image input)⟩
  have word : (State.resetWith cfg image input).wordAt i = some (image.getD i Memory.unlisted) :=
    (wordAt_of_lt below).trans (congrArg some (read_ofImage_of_lt image below))
  rw [word]
  by_cases inImage : i < image.length
  · rw [dif_pos inImage, List.getD_eq_getElem _ _ inImage]
  · rw [dif_neg inImage, List.getD_eq_default _ _ (Nat.not_lt.1 inImage), Memory.unlisted]

end Sys2Proof.Machine
end

section
/-! What a data word executes as (30_encoding.md R87): the ranges of `sval` by opcode, and the step for HLT and for the
invalid opcodes. -/

namespace Sys2Proof

/-- A word's value by its top bit: the pattern's own number, or that number less 2^32 (00_scope.md R10). -/
theorem sval_cases (w : Word) :
    (w.toNat < 2 ^ 31 ∧ sval w = w.toNat) ∨ (2 ^ 31 ≤ w.toNat ∧ sval w = w.toNat - 2 ^ 32) := by
  rw [sval, BitVec.toInt_eq_toNat_cond]
  split <;> omega

theorem opcode_zero_iff_sval (w : Word) : w.toNat / 2 ^ 27 = 0 ↔ 0 ≤ sval w ∧ sval w < 2 ^ 27 := by
  have := w.isLt
  rcases sval_cases w with ⟨below, value⟩ | ⟨above, value⟩ <;> omega

theorem le_sval_iff_opcode_one_to_fifteen (w : Word) :
    2 ^ 27 ≤ sval w ↔ 1 ≤ w.toNat / 2 ^ 27 ∧ w.toNat / 2 ^ 27 ≤ 15 := by
  have := w.isLt
  rcases sval_cases w with ⟨below, value⟩ | ⟨above, value⟩ <;> omega

theorem sval_neg_iff_opcode (w : Word) : sval w < 0 ↔ 16 ≤ w.toNat / 2 ^ 27 := by
  have := w.isLt
  rcases sval_cases w with ⟨below, value⟩ | ⟨above, value⟩ <;> omega

theorem decode_eq_hlt {w : Word} (zero : w.toNat / 2 ^ 27 = 0) : decode w = .instr (.hlt (operandField w)) := by
  rw [← opcodeField_toNat] at zero
  simp only [decode, decodeFields, zero]

/-- Opcode 4 and opcodes 10 to 31 are no row of the opcode map (30_encoding.md R86). -/
theorem decode_eq_invalidOpcode {w : Word} (invalid : w.toNat / 2 ^ 27 = 4 ∨ 10 ≤ w.toNat / 2 ^ 27) :
    decode w = .invalidOpcode (opcodeField w) := by
  rw [← opcodeField_toNat] at invalid
  unfold decode decodeFields
  split
  case h_10 => rfl
  all_goals omega

end Sys2Proof

namespace Sys2Proof.Machine

section
variable {s : State} {w : Word} (running : s.run = .running) (idle : s.reader = none)
  (fetched : s.wordAt s.ip.toNat = some w)
include running idle fetched

/-- A fetched word that decodes to an instruction is run as that instruction (40_cycle_and_halt.md R100). -/
theorem step_eq_exec {i : Instr} (decoded : decode w = .instr i) : step s = exec i s := by
  rw [step_fetched running idle fetched, decoded]

/-- A fetched word of opcode 0 halts, whatever its operand bits (40_cycle_and_halt.md R106). -/
theorem step_eq_halted (zero : w.toNat / 2 ^ 27 = 0) : step s = .next { s with run := .halted } :=
  step_eq_exec running idle fetched (decode_eq_hlt zero)

/-- A fetched word of an invalid opcode raises INVALID_OPCODE with that opcode (40_cycle_and_halt.md R107). -/
theorem step_eq_invalidOpcode (invalid : w.toNat / 2 ^ 27 = 4 ∨ 10 ≤ w.toNat / 2 ^ 27) :
    step s = .next (faultedWith .invalidOpcode (some (w.toNat / 2 ^ 27)) .execute (some w) s) := by
  rw [step_fetched running idle fetched, decode_eq_invalidOpcode invalid, ← opcodeField_toNat]
  rfl

end

/-- Settles O7: the value of a word fixes its opcode's range, and the opcode fixes the step. -/
theorem dataWordsExecute : Obligations.DataWordsExecute := by
  intro s w running idle fetched
  refine ⟨opcode_zero_iff_sval w, fun small => ?halts, le_sval_iff_opcode_one_to_fifteen w,
    fun _ decoded => step_eq_exec running idle fetched decoded, sval_neg_iff_opcode w, fun negative => ?faults⟩
  case halts => exact step_eq_halted running idle fetched ((opcode_zero_iff_sval w).2 small)
  case faults =>
    have high : 16 ≤ w.toNat / 2 ^ 27 := (sval_neg_iff_opcode w).1 negative
    exact step_eq_invalidOpcode running idle fetched (.inr (by omega))

end Sys2Proof.Machine
end

section
/-! The cycle and its stops (40_cycle_and_halt.md): the fetch as a bounds-checked read at `ip`, the fetch fault, the
stop in FAULTED, and HLT. -/

namespace Sys2Proof.Machine

/-- The fetch reads the word at `ip` as every access sees it (40_cycle_and_halt.md R101). -/
theorem fetch_eq_wordAt (s : State) : fetch s = s.wordAt s.ip.toNat := rfl

/-- A fetch from `MEM_LEN` on raises RANGE_READ at stage FETCH with `ip` as info (40_cycle_and_halt.md R101). -/
theorem step_eq_fetchRange {s : State} (running : s.run = .running) (idle : s.reader = none)
    (outside : s.cfg.memLen.val ≤ s.ip.toNat) :
    step s = .next (faultedWith .rangeRead (some s.ip.toNat) .fetch none s) := by
  have unfetched : fetch s = none := (fetch_eq_wordAt s).trans (wordAt_of_ge outside)
  exact step_unfetched running idle unfetched

/-- In FAULTED no step is enabled (40_cycle_and_halt.md R104). -/
theorem step_eq_fault_of_faulted {s : State} (faulted : s.run = .faulted) : step s = .fault .faulted := by
  simp only [step, faulted]

/-- HLT stops the core and leaves every other field, `ip` included (40_cycle_and_halt.md R106). -/
theorem exec_hlt (opd : Operand) (s : State) : exec (.hlt opd) s = .next { s with run := .halted } := rfl

/-- Settles O9: in range the fetch is the word at `ip`; from `MEM_LEN` on there is none, and the step faults. -/
theorem fetchOutOfRangeFaults : Obligations.FetchOutOfRangeFaults :=
  ⟨fun s _ word => (fetch_eq_wordAt s).trans word, fun _ => step_eq_fetchRange⟩

/-- Settles O10: the word decodes to no instruction, so the step faults, and FAULTED enables no further step. -/
theorem invalidOpcodeFaults : Obligations.InvalidOpcodeFaults := by
  intro s w running idle fetched invalid
  refine ⟨step_eq_invalidOpcode running idle fetched invalid, fun u later => ?_⟩
  rw [step_eq_fault_of_faulted rfl] at later
  cases later

/-- Settles O14, by the meaning of HLT. -/
theorem hltResult : Obligations.HltResult := exec_hlt

end Sys2Proof.Machine
end

section
/-! ADD and SUB on in-range operands (41_arithmetic.md R122): the arithmetic of `word` and `sval`, and the one next state
such an instruction answers. -/

namespace Sys2Proof

/-- The value of `word n` is `n` reduced modulo 2^32 into the signed range (00_scope.md R10). -/
theorem sval_word (n : Int) : sval (word n) = n.bmod (2 ^ 32) := BitVec.toInt_ofInt n

/-- A number in the signed range is the value of its word. -/
theorem sval_word_of_fits {n : Int} (low : -2 ^ 31 ≤ n) (high : n < 2 ^ 31) : sval (word n) = n := by
  rw [sval_word]
  exact Int.bmod_eq_of_le (by omega) (by omega)

theorem word_sval (w : Word) : word (sval w) = w := BitVec.ofInt_toInt

theorem word_add (m n : Int) : word (m + n) = word m + word n := BitVec.ofInt_add m n

theorem word_sub (m n : Int) : word (m - n) = word m - word n := by
  rw [Int.sub_eq_add_neg, word_add, BitVec.sub_eq_add_neg]
  exact congrArg (word m + ·) BitVec.ofInt_neg

end Sys2Proof

namespace Sys2Proof.Machine

/-- The sum through signed values is the modulo-2^32 sum of the bit patterns (41_arithmetic.md R122). -/
theorem add32_eq_add (a b : Word) : add32 a b = a + b := by
  rw [add32, word_add, word_sval, word_sval]

/-- The difference through signed values is the modulo-2^32 difference of the bit patterns (41_arithmetic.md R122). -/
theorem sub32_eq_sub (a b : Word) : sub32 a b = a - b := by
  rw [sub32, word_sub, word_sval, word_sval]

/-- An address names a word exactly when it is below `MEM_LEN`, and then the word memory holds there. -/
theorem wordAt_eq_some_iff {s : State} {i : Nat} {v : Word} :
    s.wordAt i = some v ↔ i < s.cfg.memLen.val ∧ s.mem.read i = v := by
  simp [State.wordAt]

/-- An instruction that reads at its operand goes on with the word that stands there. -/
theorem readOperand_of_wordAt {i : Instr} {a : Operand} {use : Word → State → State} {s : State} {v : Word}
    (read : s.wordAt a.toNat = some v) : readOperand i a use s = .next (advance (use v s)) := by
  obtain ⟨inRange, rfl⟩ := wordAt_eq_some_iff.1 read
  exact readOperand_inRange inRange

theorem exec_add_of_wordAt {a : Operand} {s : State} {v : Word} (read : s.wordAt a.toNat = some v) :
    exec (.add a) s = .next (advance (setAcc (add32 s.acc v) s)) :=
  (exec_add a s).trans (readOperand_of_wordAt read)

theorem exec_sub_of_wordAt {a : Operand} {s : State} {v : Word} (read : s.wordAt a.toNat = some v) :
    exec (.sub a) s = .next (advance (setAcc (sub32 s.acc v) s)) :=
  (exec_sub a s).trans (readOperand_of_wordAt read)

/-- An instruction that puts the word of an exact result in `acc` and goes on, wraps that result and keeps `run`. -/
theorem exec_wraps {i : Instr} {s : State} {n : Int} {w : Word}
    (answer : exec i s = .next (advance (setAcc (word n) s))) (pattern : word n = w) :
    ∃ t, exec i s = .next t ∧ t.run = s.run ∧ t.acc = w ∧ sval t.acc = n.bmod (2 ^ 32) ∧
      (-2 ^ 31 ≤ n → n < 2 ^ 31 → sval t.acc = n) :=
  ⟨_, answer, rfl, pattern, sval_word n, sval_word_of_fits⟩

/-- Settles O17: ADD and SUB each put the word of their exact result in `acc`, and that word is the sum or difference of
the bit patterns. -/
theorem arithmeticWraps : Obligations.ArithmeticWraps := fun _ v s read =>
  ⟨exec_wraps (exec_add_of_wordAt read) (add32_eq_add s.acc v),
    exec_wraps (exec_sub_of_wordAt read) (sub32_eq_sub s.acc v)⟩

end Sys2Proof.Machine
end

section
/-! The branches (43_branch.md): the two conditions on `acc`, the answer of a branch by its condition, and the fetch
fault that follows a branch to a target out of range. -/

namespace Sys2Proof

theorem eq_zero_iff_sval_eq_zero (w : Word) : w = 0 ↔ sval w = 0 := by
  rw [← BitVec.toInt_inj, sval, show BitVec.toInt (0 : Word) = 0 from BitVec.toInt_zero]

/-- Bit 31 is the sign of a word's value (00_scope.md R10). -/
theorem bit31_eq_false_iff_sval_nonneg (w : Word) : w.getLsbD 31 = false ↔ 0 ≤ sval w := by
  have sign : w.getLsbD 31 = decide (w.toInt < 0) :=
    (BitVec.msb_eq_getLsbD_last w).symm.trans BitVec.msb_eq_toInt
  rw [sign, decide_eq_false_iff_not, Int.not_lt, sval]

end Sys2Proof

namespace Sys2Proof.Machine

/-- A branch whose condition holds puts its target in `ip` (43_branch.md R143). -/
theorem branchIf_taken {taken : Bool} (holds : taken = true) (a : Operand) (s : State) :
    branchIf taken a s = .next { s with ip := branchTarget a } := by
  rw [branchIf_eq, if_pos holds]

/-- A branch whose condition fails goes on to the next word (43_branch.md R143). -/
theorem branchIf_notTaken {taken : Bool} (fails : ¬ taken = true) (a : Operand) (s : State) :
    branchIf taken a s = .next { s with ip := s.ip + 1 } := by
  rw [branchIf_eq, if_neg fails]

/-- The fetch at a branch target from `MEM_LEN` on raises RANGE_READ with the operand as info (43_branch.md R140). -/
theorem step_eq_fetchRange_at_branchTarget {a : Operand} {s : State} (running : s.run = .running)
    (idle : s.reader = none) (outside : s.cfg.memLen.val ≤ a.toNat) :
    step { s with ip := branchTarget a } =
      .next (faultedWith .rangeRead (some a.toNat) .fetch none { s with ip := branchTarget a }) := by
  rw [← branchTarget_toNat a] at outside ⊢
  exact step_eq_fetchRange (s := { s with ip := branchTarget a }) running idle outside

/-- Settles O20: BRA is the branch that is always taken. -/
theorem braResult : Obligations.BraResult := fun a s =>
  ⟨(exec_bra a s).trans (branchIf_taken rfl a s), step_eq_fetchRange_at_branchTarget⟩

/-- Settles O21: BRZ is the branch on a zero value, and only the zero word has that value. -/
theorem brzResult : Obligations.BrzResult := by
  intro a s
  refine ⟨eq_zero_iff_sval_eq_zero s.acc, fun zero => ?taken, fun nonzero => ?notTaken,
    fun running idle outside _ => step_eq_fetchRange_at_branchTarget running idle outside⟩
  case taken => exact (exec_brz a s).trans (branchIf_taken ((isZero_iff s.acc).2 zero) a s)
  case notTaken => exact (exec_brz a s).trans (branchIf_notTaken (mt (isZero_iff s.acc).1 nonzero) a s)

/-- Settles O22: BRP is the branch on a value of zero or more, and bit 31 is the value's sign. -/
theorem brpResult : Obligations.BrpResult := by
  intro a s
  refine ⟨bit31_eq_false_iff_sval_nonneg s.acc, fun nonneg => ?taken, fun negative => ?notTaken,
    fun running idle outside _ => step_eq_fetchRange_at_branchTarget running idle outside⟩
  case taken => exact (exec_brp a s).trans (branchIf_taken ((isNonNegative_iff s.acc).2 nonneg) a s)
  case notTaken =>
    exact (exec_brp a s).trans (branchIf_notTaken (mt (isNonNegative_iff s.acc).1 (Int.not_le.2 negative)) a s)

end Sys2Proof.Machine
end

section
/-! The line mode (44_io.md R165): what each shared operation, each instruction but OTC and the resumed INP leave of it. -/

namespace Sys2Proof.Machine

/-- A fetched word that decodes to an instruction names what the next step executes (40_cycle_and_halt.md R100). -/
theorem nextInstr_of_decode {s : State} {w : Word} {i : Instr} (fetched : fetch s = some w)
    (decoded : decode w = .instr i) : s.nextInstr = some i := by
  simp only [State.nextInstr, fetched, decoded]

/-- `writeNum` leaves the line mode as it is (44_io.md R161). -/
@[simp] theorem writeNum_lineMode (v : Word) (s : State) : (writeNum v s).lineMode = s.lineMode := rfl

/-- The prompt leaves the line mode as it is (44_io.md R165). -/
@[simp] theorem startAttempt_lineMode (s : State) : (startAttempt s).lineMode = s.lineMode := rfl

/-- The input protocol leaves the line mode as it is, at each of its ends (44_io.md R165). -/
theorem readFrom_keeps_lineMode {bs : List Byte} {r : Reader} {s t : State} (answer : readFrom bs r s = .next t) :
    t.lineMode = s.lineMode := by
  obtain ⟨u, answer', frame, -⟩ := readFrom_cases bs r s
  obtain rfl : u = t := Host.Outcome.next.inj (answer'.symm.trans answer)
  exact frame.lineMode

/-- An INP gone on with leaves the line mode as it is (44_io.md R165). -/
theorem resumeReading_keeps_lineMode {r : Reader} {s t : State} (answer : resumeReading r s = .next t) :
    t.lineMode = s.lineMode :=
  readFrom_keeps_lineMode (s := { s with reader := none }) answer

/-- An instruction that reads at its operand for `acc` leaves the line mode as it is, in range and out of range. -/
theorem readOperand_setAcc_keeps_lineMode {i : Instr} {a : Operand} {value : Word → State → Word} {s t : State}
    (answer : readOperand i a (fun v u => setAcc (value v u) u) s = .next t) : t.lineMode = s.lineMode := by
  rcases readOperand_cases answer with ⟨-, rfl⟩ | ⟨-, rfl⟩ <;> simp

/-- A store leaves the line mode as it is, in range and out of range. -/
theorem writeOperand_keeps_lineMode {i : Instr} {a : Operand} {v : Word} {s t : State}
    (answer : writeOperand i a v s = .next t) : t.lineMode = s.lineMode := by
  rcases writeOperand_cases answer with ⟨-, rfl⟩ | ⟨-, rfl⟩ <;> simp

/-- A branch leaves the line mode as it is, taken or not. -/
theorem branchIf_keeps_lineMode {taken : Bool} {a : Operand} {s t : State} (answer : branchIf taken a s = .next t) :
    t.lineMode = s.lineMode := by
  rw [branchIf_eq] at answer
  obtain rfl := Host.Outcome.next.inj answer
  rfl

/-- Every instruction but OTC leaves the line mode as it is, its fatal conditions included (44_io.md R165). -/
theorem exec_keeps_lineMode {i : Instr} {s t : State} (notOtc : i ≠ .otc) (answer : exec i s = .next t) :
    t.lineMode = s.lineMode := by
  cases i with
  | hlt opd =>
    obtain rfl := Host.Outcome.next.inj ((exec_hlt opd s).symm.trans answer)
    rfl
  | add a => exact readOperand_setAcc_keeps_lineMode ((exec_add a s).symm.trans answer)
  | sub a => exact readOperand_setAcc_keeps_lineMode ((exec_sub a s).symm.trans answer)
  | lda a => exact readOperand_setAcc_keeps_lineMode (value := fun v _ => v) ((exec_lda a s).symm.trans answer)
  | sta a => exact writeOperand_keeps_lineMode ((exec_sta a s).symm.trans answer)
  | bra a => exact branchIf_keeps_lineMode ((exec_bra a s).symm.trans answer)
  | brz a => exact branchIf_keeps_lineMode ((exec_brz a s).symm.trans answer)
  | brp a => exact branchIf_keeps_lineMode ((exec_brp a s).symm.trans answer)
  | inp => simpa using readFrom_keeps_lineMode ((exec_inp s).symm.trans answer)
  | out =>
    obtain rfl := Host.Outcome.next.inj ((exec_out s).symm.trans answer)
    simp
  | otc => exact absurd rfl notOtc

/-- Settles O49, by the cases of a step: the input protocol, the fatal conditions and every instruction but OTC keep the
line mode, and with no INP in progress the executed instruction is the one the hypothesis speaks of. -/
theorem onlyOtcWritesLineMode : Obligations.OnlyOtcWritesLineMode := by
  intro s t stepped otherwise
  obtain ⟨-, stepCase⟩ := step_cases stepped
  cases stepCase with
  | waiting r _ resumed => exact resumeReading_keeps_lineMode resumed
  | unfetched _ _ faulted => rw [faulted, raiseFetchRange, raiseFatal_lineMode]
  | invalidOpcode _ w opc _ _ faulted => rw [faulted, raiseInvalidOpcode, raiseFatal_lineMode]
  | invalidSelector _ w sel _ _ faulted => rw [faulted, raiseInvalidSelector, raiseFatal_lineMode]
  | instr idle w i fetched decoded executed =>
    have notOtc : i ≠ .otc := by
      rintro rfl
      exact otherwise.elim (absurd idle) (absurd (nextInstr_of_decode fetched decoded))
    exact exec_keeps_lineMode notOtc executed

end Sys2Proof.Machine
end

section
/-! The encoding (30_encoding.md): decoding and encoding are inverse, the opcode map by numbers, by match and mask,
and the loader's packing. -/

namespace Sys2Proof

/-! ### Decoding the word of two fields -/

@[simp] theorem decode_joinFields (opc : Opcode) (opd : Operand) :
    decode (joinFields opc opd) = decodeFields opc opd := by
  simp [decode]

/-- Decoding by the opcode's number (30_encoding.md R81, R84). -/
theorem decode_of_opcode {w : Word} {opc : Opcode} (number : w.toNat / 2 ^ 27 = opc.toNat) :
    decode w = decodeFields opc (operandField w) := by
  rw [← opcodeField_toNat] at number
  rw [decode, BitVec.eq_of_toNat_eq number]

/-- A selector that is none of 1, 2 and 22 names no operation (44_io.md R150). -/
theorem decodeSelector_of_ne {sel : Operand} (notInp : sel.toNat ≠ 1) (notOut : sel.toNat ≠ 2)
    (notOtc : sel.toNat ≠ 22) :
    decodeSelector sel = .invalidSelector sel := by
  unfold decodeSelector
  split
  case h_4 => rfl
  all_goals contradiction

theorem decodeSelector_eq_invalidSelector_iff {sel sel' : Operand} :
    decodeSelector sel = .invalidSelector sel' ↔ sel' = sel ∧ sel.toNat ≠ 1 ∧ sel.toNat ≠ 2 ∧ sel.toNat ≠ 22 := by
  unfold decodeSelector
  split <;> simp_all [eq_comm]

/-- What the decoder reads as an operation is that operation's two fields: a selector. -/
theorem encode_of_decodeSelector {sel : Operand} {i : Instr} (decoded : decodeSelector sel = .instr i) :
    encode i = joinFields 9 sel := by
  unfold decodeSelector at decoded
  split at decoded
  case h_4 => cases decoded
  all_goals
    cases decoded
    exact congrArg (joinFields 9) (BitVec.eq_of_toNat_eq (Eq.symm ‹_›))

/-- What the decoder reads as an operation is that operation's two fields. -/
theorem encode_of_decodeFields {opc : Opcode} {opd : Operand} {i : Instr} (decoded : decodeFields opc opd = .instr i) :
    encode i = joinFields opc opd := by
  unfold decodeFields at decoded
  split at decoded
  case h_9 number =>
    rw [encode_of_decodeSelector decoded]
    exact congrArg (joinFields · opd) (BitVec.eq_of_toNat_eq number.symm)
  case h_10 => cases decoded
  all_goals
    cases decoded
    exact congrArg (joinFields · opd) (BitVec.eq_of_toNat_eq (Eq.symm ‹_›))

/-- The decoder undoes the encoder, for each instruction by its two fields. -/
theorem decode_encode (i : Instr) : decode (encode i) = .instr i := by
  cases i with
  | hlt opd => exact decode_joinFields 0 opd
  | add a => exact decode_joinFields 1 a
  | sub a => exact decode_joinFields 2 a
  | sta a => exact decode_joinFields 3 a
  | lda a => exact decode_joinFields 5 a
  | bra a => exact decode_joinFields 6 a
  | brz a => exact decode_joinFields 7 a
  | brp a => exact decode_joinFields 8 a
  | inp => exact decode_joinFields 9 1
  | out => exact decode_joinFields 9 2
  | otc => exact decode_joinFields 9 22

/-- The encoder undoes the decoder: a word is its two fields, and they are the instruction's. -/
theorem encode_of_decode {w : Word} {i : Instr} (decoded : decode w = .instr i) : encode i = w :=
  (encode_of_decodeFields decoded).trans (joinFields_fields w)

theorem decode_eq_instr_iff {w : Word} {i : Instr} : decode w = .instr i ↔ encode i = w :=
  ⟨encode_of_decode, fun encoded => encoded ▸ decode_encode i⟩

theorem wellFormed_of_instr (i : Instr) : i.wellFormed = true := by
  cases i with
  | hlt opd => exact Laws.PairWellFormed.hlt opd
  | add a => exact Laws.PairWellFormed.add a
  | sub a => exact Laws.PairWellFormed.sub a
  | sta a => exact Laws.PairWellFormed.sta a
  | lda a => exact Laws.PairWellFormed.lda a
  | bra a => exact Laws.PairWellFormed.bra a
  | brz a => exact Laws.PairWellFormed.brz a
  | brp a => exact Laws.PairWellFormed.brp a
  | inp => exact Laws.PairWellFormed.inp
  | out => exact Laws.PairWellFormed.out
  | otc => exact Laws.PairWellFormed.otc

/-- The word of an instruction is `op · 2^27 + a` as an unsigned number (30_encoding.md R89). -/
theorem toNat_encode (i : Instr) : (encode i).toNat = i.opcodeNumber * 2 ^ 27 + i.operandNumber := by
  cases i with
  | hlt opd => exact Laws.WordNumber.hlt opd
  | add a => exact Laws.WordNumber.add a
  | sub a => exact Laws.WordNumber.sub a
  | sta a => exact Laws.WordNumber.sta a
  | lda a => exact Laws.WordNumber.lda a
  | bra a => exact Laws.WordNumber.bra a
  | brz a => exact Laws.WordNumber.brz a
  | brp a => exact Laws.WordNumber.brp a
  | inp => exact Laws.WordNumber.inp
  | out => exact Laws.WordNumber.out
  | otc => exact Laws.WordNumber.otc

/-- Settles O4, by the two fields of each instruction's word. -/
theorem decodeOfEncode : Obligations.DecodeOfEncode := fun i => ⟨wellFormed_of_instr i, decode_encode i⟩

/-- Settles O5: what the decoder reads is the word's own two fields. -/
theorem encodeOfDecode : Obligations.EncodeOfDecode := fun _ _ => encode_of_decode

/-- Settles O1, by running the decoder on each written word. -/
theorem writtenWordsDecode : Obligations.WrittenWordsDecode := by
  unfold Obligations.WrittenWordsDecode
  decide

/-- Settles O2: the decoder's row for the opcode, at the operand the remainder names. -/
theorem decodeFollowsOpcodeMap : Obligations.DecodeFollowsOpcodeMap := by
  intro w opd remainder
  obtain rfl : operandField w = opd := BitVec.eq_of_toNat_eq ((operandField_toNat w).trans remainder.symm)
  refine ⟨decode_of_opcode (opc := 0), decode_of_opcode (opc := 1), decode_of_opcode (opc := 2),
    decode_of_opcode (opc := 3), decode_of_opcode (opc := 5), decode_of_opcode (opc := 6), decode_of_opcode (opc := 7),
    decode_of_opcode (opc := 8), fun io selector => ?inp, fun io selector => ?out, fun io selector => ?otc,
    fun io notInp notOut notOtc => ?selector, fun opc number invalid => ?opcode⟩
  case inp => rw [decode_of_opcode (opc := 9) io, selector]; rfl
  case out => rw [decode_of_opcode (opc := 9) io, selector]; rfl
  case otc => rw [decode_of_opcode (opc := 9) io, selector]; rfl
  case selector =>
    rw [decode_of_opcode (opc := 9) io]
    exact decodeSelector_of_ne (fun h => notInp (BitVec.eq_of_toNat_eq h)) (fun h => notOut (BitVec.eq_of_toNat_eq h))
      (fun h => notOtc (BitVec.eq_of_toNat_eq h))
  case opcode =>
    rw [decode_eq_invalidOpcode (number ▸ invalid)]
    exact congrArg _ (BitVec.eq_of_toNat_eq ((opcodeField_toNat w).trans number.symm))

/-! ### Match and mask -/

/-- Masking a word to its bits from `n` on. -/
theorem toNat_and_highMask (w : Word) (n : Nat) :
    (w &&& (BitVec.allOnes 32 <<< n)).toNat = w.toNat / 2 ^ n * 2 ^ n := by
  have shifted : w &&& (BitVec.allOnes 32 <<< n) = (w >>> n) <<< n := by
    ext i below
    by_cases low : i < n
    · simp [low]
    · simp [low, below, show n + (i - n) = i by omega, -BitVec.reduceAllOnes]
  have fits := w.isLt
  rw [shifted, BitVec.toNat_shiftLeft, BitVec.toNat_ushiftRight, Nat.shiftRight_eq_div_pow, Nat.shiftLeft_eq]
  exact Nat.mod_eq_of_lt (Nat.lt_of_le_of_lt (Nat.div_mul_le_self _ _) fits)

/-- A word under a mask of its high bits is a match exactly when the numbers above the mask's low end agree. -/
theorem and_mask_eq_iff {w mask value : Word} (n : Nat) (high : mask = BitVec.allOnes 32 <<< n) :
    w &&& mask = value ↔ w.toNat / 2 ^ n * 2 ^ n = value.toNat := by
  rw [← BitVec.toNat_inj, high, toNat_and_highMask w n]

/-- The words of one opcode, by their number. -/
theorem exists_joinFields_eq_iff (opc : Opcode) (w : Word) :
    (∃ opd, joinFields opc opd = w) ↔ w.toNat / 2 ^ 27 = opc.toNat := by
  constructor
  · rintro ⟨opd, rfl⟩
    rw [← opcodeField_toNat, opcodeField_joinFields]
  · intro number
    rw [← opcodeField_toNat] at number
    exact ⟨operandField w, BitVec.eq_of_toNat_eq number ▸ joinFields_fields w⟩

/-- A row of the opcode table whose operand is any: its operation is decoded exactly under the opcode's match
(30_encoding.md R84). -/
theorem exists_decode_iff_mask {op : Operand → Instr} {opc : Opcode} {w value : Word}
    (row : ∀ opd, encode (op opd) = joinFields opc opd) (isMatch : value = joinFields opc 0) :
    (∃ opd, decode w = .instr (op opd)) ↔ w &&& 0xF8000000 = value := by
  simp only [decode_eq_instr_iff, row]
  rw [exists_joinFields_eq_iff, and_mask_eq_iff 27 (by decide), isMatch, toNat_joinFields]
  simp

theorem decode_eq_invalidOpcode_iff {w : Word} :
    (∃ opc, decode w = .invalidOpcode opc) ↔ w.toNat / 2 ^ 27 = 4 ∨ 10 ≤ w.toNat / 2 ^ 27 := by
  refine ⟨fun ⟨opc, decoded⟩ => ?_, fun invalid => ⟨_, decode_eq_invalidOpcode invalid⟩⟩
  rw [← opcodeField_toNat]
  unfold decode decodeFields at decoded
  split at decoded
  case h_9 =>
    unfold decodeSelector at decoded
    split at decoded <;> cases decoded
  case h_10 =>
    simp only [imp_false] at *
    omega
  all_goals cases decoded

theorem decode_eq_invalidSelector_iff {w : Word} {sel : Operand} :
    decode w = .invalidSelector sel ↔
      w.toNat / 2 ^ 27 = 9 ∧ sel = operandField w ∧ sel.toNat ≠ 1 ∧ sel.toNat ≠ 2 ∧ sel.toNat ≠ 22 := by
  constructor
  · intro decoded
    rw [← opcodeField_toNat]
    unfold decode decodeFields at decoded
    split at decoded
    case h_9 number =>
      obtain ⟨rfl, others⟩ := decodeSelector_eq_invalidSelector_iff.1 decoded
      exact ⟨number, rfl, others⟩
    all_goals cases decoded
  · rintro ⟨number, rfl, others⟩
    rw [decode_of_opcode (opc := 9) number]
    exact decodeSelector_eq_invalidSelector_iff.2 ⟨rfl, others⟩

/-- The IO words with a selector that names no operation, by their number. -/
theorem exists_decode_eq_invalidSelector_iff {w : Word} :
    (∃ sel, decode w = .invalidSelector sel) ↔
      w.toNat / 2 ^ 27 = 9 ∧ w.toNat % 2 ^ 27 ≠ 1 ∧ w.toNat % 2 ^ 27 ≠ 2 ∧ w.toNat % 2 ^ 27 ≠ 22 := by
  simp only [decode_eq_invalidSelector_iff, ← operandField_toNat]
  exact ⟨fun ⟨_, number, field, others⟩ => ⟨number, field ▸ others⟩, fun ⟨number, others⟩ => ⟨_, number, rfl, others⟩⟩

/-- Settles O3: the rows with an operand by their opcode's match, the IO words as written out, and the invalid words by
the numbers their masks compare. -/
theorem opcodeTableMatchAndMask : Obligations.OpcodeTableMatchAndMask := by
  intro w
  refine ⟨exists_decode_iff_mask (fun _ => rfl) rfl, exists_decode_iff_mask (fun _ => rfl) rfl,
    exists_decode_iff_mask (fun _ => rfl) rfl, exists_decode_iff_mask (fun _ => rfl) rfl,
    exists_decode_iff_mask (fun _ => rfl) rfl, exists_decode_iff_mask (fun _ => rfl) rfl,
    exists_decode_iff_mask (fun _ => rfl) rfl, exists_decode_iff_mask (fun _ => rfl) rfl,
    decode_eq_instr_iff.trans eq_comm, decode_eq_instr_iff.trans eq_comm, decode_eq_instr_iff.trans eq_comm,
    ?opcode, ?selector⟩
  case opcode =>
    rw [decode_eq_invalidOpcode_iff, and_mask_eq_iff 27 (by decide), and_mask_eq_iff 28 (by decide),
      and_mask_eq_iff 29 (by decide), and_mask_eq_iff 31 (by decide)]
    have := w.isLt
    simp only [BitVec.reduceToNat]
    omega
  case selector =>
    rw [exists_decode_eq_invalidSelector_iff, and_mask_eq_iff 27 (by decide)]
    simp only [ne_eq, ← BitVec.toNat_inj, BitVec.reduceToNat]
    omega

/-! ### The loader's packing -/

theorem word_natCast (n : Nat) : word (n : Int) = BitVec.ofNat 32 n := BitVec.ofInt_natCast 32 n

/-- An instruction's pair packs to its word. -/
theorem pack_toPair (i : Instr) : pack i.toPair = some (encode i) := by
  have number : (i.opcodeNumber : Int) * 2 ^ 27 + (i.operandNumber : Int) = ((encode i).toNat : Int) := by
    rw [toNat_encode]
    push_cast
    rfl
  have packed : pack i.toPair = some (word ((i.opcodeNumber : Int) * 2 ^ 27 + (i.operandNumber : Int))) :=
    if_pos (wellFormed_of_instr i)
  rw [packed, number, word_natCast, BitVec.ofNat_toNat, BitVec.setWidth_eq]

/-- The pairs in range (30_encoding.md R89). -/
theorem wellFormed_iff (p : RawPair) :
    p.wellFormed = true ↔
      (p.op = 0 ∧ -2 ^ 31 ≤ p.opd ∧ p.opd < 2 ^ 31) ∨ (1 ≤ p.op ∧ p.op ≤ 31 ∧ 0 ≤ p.opd ∧ p.opd < 2 ^ 27) := by
  simp only [RawPair.wellFormed, RawPair.opcodeInRange, RawPair.operandInRange, Bool.and_eq_true, decide_eq_true_eq]
  by_cases data : p.op = 0
  · rw [if_pos data, decide_eq_true_eq]
    omega
  · rw [if_neg data, decide_eq_true_eq]
    omega

theorem pack_eq_some_iff {p : RawPair} {w : Word} :
    pack p = some w ↔ p.wellFormed = true ∧ word ((p.op : Int) * 2 ^ 27 + p.opd) = w := by
  simp [pack]

theorem pack_isSome_iff (p : RawPair) : (pack p).isSome = true ↔ p.wellFormed = true := by
  simp [pack]

/-- The fields of a packed word with an opcode of 1 to 31. -/
theorem fields_of_pack {p : RawPair} {w : Word} (packed : pack p = some w) (isInstr : 1 ≤ p.op) :
    w.toNat / 2 ^ 27 = p.op ∧ ((w.toNat % 2 ^ 27 : Nat) : Int) = p.opd := by
  obtain ⟨wellFormed, rfl⟩ := pack_eq_some_iff.1 packed
  obtain ⟨isData, -⟩ | ⟨-, opcode, nonneg, operand⟩ := (wellFormed_iff p).1 wellFormed
  · omega
  obtain ⟨a, number⟩ := Int.eq_ofNat_of_zero_le nonneg
  have joined : word ((p.op : Int) * 2 ^ 27 + p.opd) = BitVec.ofNat 32 (p.op * 2 ^ 27 + a) := by
    rw [number, ← word_natCast]
    push_cast
    rfl
  have value : (word ((p.op : Int) * 2 ^ 27 + p.opd)).toNat = p.op * 2 ^ 27 + a := by
    rw [joined, BitVec.toNat_ofNat, Nat.mod_eq_of_lt (by omega)]
  omega

/-- A packed data word has the value it was given. -/
theorem sval_of_pack_data {v : Int} {w : Word} (packed : pack { op := 0, opd := v } = some w) : sval w = v := by
  obtain ⟨wellFormed, rfl⟩ := pack_eq_some_iff.1 packed
  have range := (wellFormed_iff _).1 wellFormed
  dsimp only at range
  simp only [CharP.cast_eq_zero, zero_mul, zero_add]
  exact sval_word_of_fits (by omega) (by omega)

/-- Settles O6, by the pairs in range and the number packing makes of a pair. -/
theorem packingConvention : Obligations.PackingConvention :=
  ⟨pack_toPair, fun p => (pack_isSome_iff p).trans (wellFormed_iff p), fun _ _ => fields_of_pack,
    fun _ _ => sval_of_pack_data⟩

end Sys2Proof
end

section
/-! The memory array (20_memory.md): reading back a write through the bounds checks, and the one canonical list of a
memory's words. -/

namespace Sys2Proof.Machine

/-! ### Bounds-checked access -/

theorem memRead_isSome_iff (addr : Word) (s : State) :
    (memRead addr s).isSome = true ↔ addr.toNat < s.cfg.memLen.val := by
  simp [memRead]

theorem memWrite_isSome_iff (addr v : Word) (s : State) :
    (memWrite addr v s).isSome = true ↔ addr.toNat < s.cfg.memLen.val := by
  simp [memWrite]

/-- The one state a write in range answers. -/
theorem memWrite_eq_some {addr v : Word} {s t : State} (written : memWrite addr v s = some t) :
    addr.toNat < s.cfg.memLen.val ∧ t = { s with mem := s.mem.write addr.toNat v } := by
  have inRange := (memWrite_isSome_iff addr v s).1 (written ▸ rfl)
  exact ⟨inRange, Option.some.inj (written.symm.trans (memWrite_inRange inRange))⟩

section
variable {s : State} (canonical : s.mem.wf) (a : Nat) (v : Word)
include canonical

/-- A written address in range reads as the value written (20_memory.md R52). -/
theorem wordAt_write_same (inRange : a < s.cfg.memLen.val) :
    ({ s with mem := s.mem.write a v } : State).wordAt a = some v := by
  rw [wordAt_of_lt (s := { s with mem := s.mem.write a v }) inRange, read_write canonical, if_pos rfl]

/-- Every address that is not the written one reads as before (20_memory.md R52). -/
theorem wordAt_write_other {x : Nat} (other : x ≠ a) :
    ({ s with mem := s.mem.write a v } : State).wordAt x = s.wordAt x := by
  simp only [State.wordAt, read_write canonical, if_neg other]

end

/-- Settles O37, by the laws of reading after a write. -/
theorem memoryReadAfterWrite : Obligations.MemoryReadAfterWrite := by
  intro s x y v canonical
  refine ⟨memWrite_isSome_iff x v s, memRead_isSome_iff y s, fun t written => ?_⟩
  obtain ⟨inRange, rfl⟩ := memWrite_eq_some written
  exact ⟨wordAt_write_same canonical _ v inRange,
    fun other => wordAt_write_other canonical _ v (mt BitVec.eq_of_toNat_eq other), write_wf canonical _ v⟩

/-! ### The canonical form -/

/-- The canonical form of a list with a first cell: that cell lists a word, below every later cell. -/
theorem wf_cons_iff {c : MemCell} {m : Memory} :
    Memory.wf (c :: m) ↔ (∀ d ∈ m, c.1 < d.1) ∧ c.2 ≠ Memory.unlisted ∧ m.wf := by
  simp only [Memory.wf, List.pairwise_cons, List.forall_mem_cons]
  tauto

theorem read_cons_same (a : Nat) (v : Word) (m : Memory) : Memory.read ((a, v) :: m) a = v := if_pos rfl

theorem read_cons_other {a x : Nat} (v : Word) (m : Memory) (other : x ≠ a) :
    Memory.read ((a, v) :: m) x = m.read x := if_neg other

/-- A canonical memory that starts at `a` does not read like one that lists nothing up to `a`. -/
theorem read_ne_of_below {a : Nat} {v : Word} {m n : Memory} (listed : v ≠ Memory.unlisted) (below : ∀ c ∈ n, a < c.1) :
    Memory.read ((a, v) :: m) a ≠ n.read a := by
  rw [read_cons_same, read_below below]
  exact listed

/-- Canonical memories that read alike are one list: their first cells are at one address, and hold one word. -/
theorem eq_of_read_eq {m n : Memory} (hm : m.wf) (hn : n.wf) (alike : ∀ a, m.read a = n.read a) : m = n := by
  induction m generalizing n with
  | nil =>
    cases n with
    | nil => rfl
    | cons d n =>
      obtain ⟨-, listed, -⟩ := wf_cons_iff.1 hn
      exact absurd (alike d.1).symm (read_ne_of_below listed (by simp))
  | cons c m ih =>
    obtain ⟨above, listed, hm'⟩ := wf_cons_iff.1 hm
    obtain ⟨a, v⟩ := c
    cases n with
    | nil => exact absurd (alike a) (read_ne_of_below listed (by simp))
    | cons d n =>
      obtain ⟨above', listed', hn'⟩ := wf_cons_iff.1 hn
      obtain ⟨b, w⟩ := d
      have sameAddress : a = b := by
        rcases Nat.lt_trichotomy a b with lower | same | higher
        · exact absurd (alike a) (read_ne_of_below listed
            (List.forall_mem_cons.2 ⟨lower, fun c hc => Nat.lt_trans lower (above' c hc)⟩))
        · exact same
        · exact absurd (alike b).symm (read_ne_of_below listed'
            (List.forall_mem_cons.2 ⟨higher, fun c hc => Nat.lt_trans higher (above c hc)⟩))
      subst sameAddress
      have sameWord : v = w := by simpa only [read_cons_same] using alike a
      have sameRest : m = n := ih hm' hn' fun x => by
        by_cases first : x = a
        · rw [first, read_below above, read_below above']
        · simpa only [read_cons_other _ _ first] using alike x
      rw [sameWord, sameRest]

/-- Settles O38: a write of the word that stands there reads alike everywhere, and so is the same list. -/
theorem canonicalMemoryIsUnique : Obligations.CanonicalMemoryIsUnique := by
  refine ⟨fun _ _ => eq_of_read_eq, fun m a canonical => eq_of_read_eq (write_wf canonical a _) canonical fun x => ?_⟩
  rw [read_write canonical]
  split
  · next same => rw [same]
  · rfl

end Sys2Proof.Machine
end

section
/-! What each instruction does (41_arithmetic.md, 42_load_store.md, 43_branch.md, 44_io.md section 2): the results in
range and out of range, the cases of an instruction that answers a next state said once, and the frames that follow.
-/

namespace Sys2Proof.Machine

/-! ### Results -/

/-- A read at an operand out of range raises RANGE_READ (42_load_store.md R132). -/
theorem exec_readsAt_outOfRange {i : Instr} {a : Operand} {s : State} (reads : Instr.readsAt i a)
    (outside : s.cfg.memLen.val ≤ a.toNat) :
    exec i s = .next (faultedWith .rangeRead (some a.toNat) .execute (some (encode i)) s) := by
  obtain ⟨value, meaning⟩ := readsAt_eq reads
  exact (meaning s).trans (readOperand_outOfRange outside)

theorem exec_lda_of_wordAt {a : Operand} {s : State} {v : Word} (read : s.wordAt a.toNat = some v) :
    exec (.lda a) s = .next (advance (setAcc v s)) :=
  (exec_lda a s).trans (readOperand_of_wordAt read)

/-- Settles O15, by the two ends of a read at the operand. -/
theorem addResult : Obligations.AddResult := fun _ _ =>
  ⟨fun _ read => exec_add_of_wordAt read, exec_readsAt_outOfRange (.inl rfl)⟩

/-- Settles O16, by the two ends of a read at the operand. -/
theorem subResult : Obligations.SubResult := fun _ _ =>
  ⟨fun _ read => exec_sub_of_wordAt read, exec_readsAt_outOfRange (.inr (.inl rfl))⟩

/-- Settles O19, by the two ends of a read at the operand. -/
theorem ldaResult : Obligations.LdaResult := fun _ _ =>
  ⟨fun _ read => exec_lda_of_wordAt read, exec_readsAt_outOfRange (.inr (.inr rfl))⟩

/-- Settles O18: in range the written memory reads as a memory after a write, the next fetch included. -/
theorem staResult : Obligations.StaResult := by
  intro a s canonical
  refine ⟨fun inRange => ?_, writeOperand_outOfRange⟩
  have stored : ({ s with mem := s.mem.write a.toNat s.acc } : State).wordAt a.toNat = some s.acc :=
    wordAt_write_same canonical _ _ inRange
  refine ⟨_, writeOperand_inRange inRange, stored, fun x other => wordAt_write_other canonical _ _ other, rfl,
    fun isNext => ?_⟩
  rw [fetch_eq_wordAt, advance_ip, ← isNext]
  exact stored

/-- What `writeNum` emits, by the line mode (44_io.md R161). -/
theorem writeNum_inLine {v : Word} {s : State} (inLine : s.lineMode = true) :
    writeNum v s = outEmit (dec (sval v)) s := by
  rw [writeNum, inLine, if_pos rfl, List.append_nil]

theorem writeNum_outOfLine {v : Word} {s : State} (outOfLine : s.lineMode = false) :
    writeNum v s = outEmit (dec (sval v) ++ [charLF]) s := by
  rw [writeNum, outOfLine, if_neg Bool.false_ne_true]

/-- Settles O23, by the text OUT emits in each line mode. -/
theorem outResult : Obligations.OutResult := by
  intro s
  refine ⟨fun inLine => ?_, fun outOfLine => ?_⟩
  · rw [exec_out, writeNum_inLine inLine]
    rfl
  · rw [exec_out, writeNum_outOfLine outOfLine, outEmit, ← List.append_assoc]
    rfl

/-- The byte OTC emits is `acc` modulo 256 (44_io.md R163; log 15). -/
theorem lowByte_toNat (v : Word) : (lowByte v).toNat = v.toNat % 256 := by
  rw [lowByte, BitVec.extractLsb'_toNat, Nat.shiftRight_zero]

/-- Settles O24, by the byte OTC emits. -/
theorem otcResult : Obligations.OtcResult := by
  intro s b low
  obtain rfl : lowByte s.acc = b := BitVec.eq_of_toNat_eq ((lowByte_toNat s.acc).trans low.symm)
  exact exec_otc s

/-! ### The cases of an instruction -/

/-- The value `acc` gets from an instruction that read the word `v` (42_load_store.md R132). -/
def Loads (i : Instr) (a : Operand) (s : State) (v acc : Word) : Prop :=
  (i = .add a ∧ acc = s.acc + v) ∨ (i = .sub a ∧ acc = s.acc - v) ∨ (i = .lda a ∧ acc = v)

/-- The branches, with whether they are taken (43_branch.md R140 to R142). -/
def Branches (i : Instr) (a : Operand) (s : State) (taken : Bool) : Prop :=
  (i = .bra a ∧ taken = true) ∨ (i = .brz a ∧ taken = isZero s.acc) ∨ (i = .brp a ∧ taken = isNonNegative s.acc)

/-- The instructions with an operand in memory, with the cause they raise where it is out of range
(60_exceptions.md R203). -/
def AccessesAt (i : Instr) (a : Operand) (cause : Cause) : Prop :=
  (Instr.readsAt i a ∧ cause = .rangeRead) ∨ (i = .sta a ∧ cause = .rangeWrite)

/-- An instruction other than INP that completes, with all it does (40_cycle_and_halt.md R105, R106). -/
inductive Completes (i : Instr) (s t : State) : Prop where
  | halted (opd : Operand) (hi : i = .hlt opd) (h : t = { s with run := .halted })
  | loaded (a : Operand) (v acc : Word) (read : s.wordAt a.toNat = some v) (hi : Loads i a s v acc)
      (h : t = advance (setAcc acc s))
  | stored (a : Operand) (inRange : a.toNat < s.cfg.memLen.val) (hi : i = .sta a)
      (h : t = advance { s with mem := s.mem.write a.toNat s.acc })
  | branched (a : Operand) (taken : Bool) (hi : Branches i a s taken)
      (h : t = { s with ip := if taken then branchTarget a else s.ip + 1 })
  | printed (bytes : List Byte) (line : Bool) (hi : (i = .out ∧ line = s.lineMode) ∨ i = .otc)
      (h : t = advance (setLineMode line (outEmit bytes s)))

/-- The cases of an instruction that answers a next state: it completes, its operand is out of range, or it reads. -/
inductive ExecCase (i : Instr) (s t : State) : Prop where
  | completes (h : Completes i s t)
  | outside (a : Operand) (cause : Cause) (hi : AccessesAt i a cause) (outside : s.cfg.memLen.val ≤ a.toNat)
      (h : t = raiseFatal cause (some a.toNat) (.execute (encode i)) s)
  | input (hi : i = .inp)

/-- The cases of an instruction that reads at its operand for `acc`. -/
theorem readOperand_execCase {i : Instr} {a : Operand} {value : Word → State → Word} {s t : State}
    (reads : Instr.readsAt i a) (loads : ∀ v, Loads i a s v (value v s))
    (answer : readOperand i a (fun v u => setAcc (value v u) u) s = .next t) : ExecCase i s t := by
  obtain ⟨inRange, rfl⟩ | ⟨outside, rfl⟩ := readOperand_cases answer
  · exact .completes (.loaded a _ _ (wordAt_of_lt inRange) (loads _) rfl)
  · exact .outside a .rangeRead (.inl ⟨reads, rfl⟩) outside rfl

/-- The case of a branch. -/
theorem branchIf_execCase {i : Instr} {a : Operand} {taken : Bool} {s t : State} (branches : Branches i a s taken)
    (answer : branchIf taken a s = .next t) : ExecCase i s t := by
  rw [branchIf_eq] at answer
  exact .completes (.branched a taken branches (Host.Outcome.next.inj answer).symm)

theorem exec_cases {i : Instr} {s t : State} (answer : exec i s = .next t) : ExecCase i s t := by
  cases i with
  | hlt opd => exact .completes (.halted opd rfl (Host.Outcome.next.inj answer).symm)
  | add a =>
    exact readOperand_execCase (.inl rfl) (fun v => .inl ⟨rfl, add32_eq_add s.acc v⟩) ((exec_add a s).symm.trans answer)
  | sub a =>
    exact readOperand_execCase (.inr (.inl rfl)) (fun v => .inr (.inl ⟨rfl, sub32_eq_sub s.acc v⟩))
      ((exec_sub a s).symm.trans answer)
  | lda a =>
    exact readOperand_execCase (value := fun v _ => v) (.inr (.inr rfl)) (fun _ => .inr (.inr ⟨rfl, rfl⟩))
      ((exec_lda a s).symm.trans answer)
  | sta a =>
    obtain ⟨inRange, rfl⟩ | ⟨outside, rfl⟩ := writeOperand_cases ((exec_sta a s).symm.trans answer)
    · exact .completes (.stored a inRange rfl rfl)
    · exact .outside a .rangeWrite (.inr ⟨rfl, rfl⟩) outside rfl
  | bra a => exact branchIf_execCase (.inl ⟨rfl, rfl⟩) ((exec_bra a s).symm.trans answer)
  | brz a => exact branchIf_execCase (.inr (.inl ⟨rfl, rfl⟩)) ((exec_brz a s).symm.trans answer)
  | brp a => exact branchIf_execCase (.inr (.inr ⟨rfl, rfl⟩)) ((exec_brp a s).symm.trans answer)
  | inp => exact .input rfl
  | out => exact .completes (.printed _ s.lineMode (.inl ⟨rfl, rfl⟩) (Host.Outcome.next.inj answer).symm)
  | otc => exact .completes (.printed _ _ (.inr rfl) (Host.Outcome.next.inj answer).symm)

theorem readOperand_answers_next (i : Instr) (a : Operand) (use : Word → State → State) (s : State) :
    ∃ t, readOperand i a use s = .next t :=
  (Nat.lt_or_ge a.toNat s.cfg.memLen.val).elim (fun inRange => ⟨_, readOperand_inRange inRange⟩)
    (fun outside => ⟨_, readOperand_outOfRange outside⟩)

theorem writeOperand_answers_next (i : Instr) (a : Operand) (v : Word) (s : State) :
    ∃ t, writeOperand i a v s = .next t :=
  (Nat.lt_or_ge a.toNat s.cfg.memLen.val).elim (fun inRange => ⟨_, writeOperand_inRange inRange⟩)
    (fun outside => ⟨_, writeOperand_outOfRange outside⟩)

/-- Every instruction answers a next state: nothing is refused (40_cycle_and_halt.md R100). -/
theorem exec_answers_next (i : Instr) (s : State) : ∃ t, exec i s = .next t := by
  cases i with
  | hlt opd => exact ⟨_, exec_hlt opd s⟩
  | add a => exact exec_add a s ▸ readOperand_answers_next _ _ _ s
  | sub a => exact exec_sub a s ▸ readOperand_answers_next _ _ _ s
  | lda a => exact exec_lda a s ▸ readOperand_answers_next _ _ _ s
  | sta a => exact exec_sta a s ▸ writeOperand_answers_next _ _ _ s
  | bra a => exact ⟨_, (exec_bra a s).trans (branchIf_eq _ a s)⟩
  | brz a => exact ⟨_, (exec_brz a s).trans (branchIf_eq _ a s)⟩
  | brp a => exact ⟨_, (exec_brp a s).trans (branchIf_eq _ a s)⟩
  | inp =>
    obtain ⟨t, answer, -⟩ := readFrom_cases s.inputLeft .lead (startAttempt s)
    exact ⟨t, (exec_inp s).trans answer⟩
  | out => exact ⟨_, exec_out s⟩
  | otc => exact ⟨_, exec_otc s⟩

/-! ### Frames -/

/-- Where memory and `MEM_LEN` are as before, every word reads as before. -/
theorem memoryKept_of_eq {s t : State} (mem : t.mem = s.mem) (cfg : t.cfg = s.cfg) : MemoryKept s t := by
  intro x
  rw [State.wordAt, State.wordAt, mem, cfg]

/-- Settles O42, by the two ends of a read at the operand. -/
theorem loadAndArithmeticFrame : Obligations.LoadAndArithmeticFrame := by
  intro i a s t reads answer
  obtain ⟨value, meaning⟩ := readsAt_eq reads
  obtain ⟨inRange, rfl⟩ | ⟨outside, rfl⟩ := readOperand_cases ((meaning s).symm.trans answer)
  · exact ⟨memoryKept_of_eq rfl rfl, ⟨rfl, rfl, rfl, rfl, rfl, rfl⟩, fun _ => ⟨rfl, rfl, rfl⟩,
      fun outside => absurd inRange (Nat.not_lt.2 outside)⟩
  · exact ⟨memoryKept_of_eq rfl rfl, ⟨rfl, rfl, rfl, rfl, rfl, rfl⟩,
      fun inRange => absurd inRange (Nat.not_lt.2 outside), fun _ => ⟨rfl, rfl⟩⟩

/-- Settles O43, by the two ends of a write at the operand. -/
theorem storeFrame : Obligations.StoreFrame := by
  intro a s t canonical answer
  rw [effectiveAddress_toNat]
  obtain ⟨inRange, rfl⟩ | ⟨outside, rfl⟩ := writeOperand_cases ((exec_sta a s).symm.trans answer)
  · exact ⟨fun x other => wordAt_write_other canonical _ _ other, rfl, ⟨rfl, rfl, rfl, rfl, rfl, rfl⟩,
      fun _ => ⟨rfl, rfl, rfl⟩, fun outside => absurd inRange (Nat.not_lt.2 outside)⟩
  · exact ⟨fun _ _ => rfl, rfl, ⟨rfl, rfl, rfl, rfl, rfl, rfl⟩,
      fun inRange => absurd inRange (Nat.not_lt.2 outside), fun _ => ⟨rfl, memoryKept_of_eq rfl rfl⟩⟩

/-- A branch writes `ip` only, taken or not (43_branch.md R143). -/
theorem branchIf_frame {taken : Bool} {a : Operand} {s t : State} (answer : branchIf taken a s = .next t) :
    MemoryKept s t ∧ PortsKept s t ∧ RunKept s t ∧ t.acc = s.acc := by
  rw [branchIf_eq] at answer
  obtain rfl := Host.Outcome.next.inj answer
  exact ⟨memoryKept_of_eq rfl rfl, ⟨rfl, rfl, rfl, rfl, rfl, rfl⟩, ⟨rfl, rfl, rfl⟩, rfl⟩

/-- Settles O44, by the one state a branch or HLT answers. -/
theorem branchAndHaltFrame : Obligations.BranchAndHaltFrame := by
  intro a s t
  refine ⟨?branches, fun answer => ?halt⟩
  case branches =>
    rintro (answer | answer | answer)
    · exact branchIf_frame ((exec_bra a s).symm.trans answer)
    · exact branchIf_frame ((exec_brz a s).symm.trans answer)
    · exact branchIf_frame ((exec_brp a s).symm.trans answer)
  case halt =>
    obtain rfl := Host.Outcome.next.inj ((exec_hlt a s).symm.trans answer)
    exact ⟨memoryKept_of_eq rfl rfl, ⟨rfl, rfl, rfl, rfl, rfl, rfl⟩, rfl, rfl, rfl, rfl⟩

/-- Settles O45, by the one state OUT or OTC answers. -/
theorem outputFrame : Obligations.OutputFrame := by
  rintro i s t (rfl | rfl) answer
  · obtain rfl := Host.Outcome.next.inj ((exec_out s).symm.trans answer)
    exact ⟨memoryKept_of_eq rfl rfl, ⟨rfl, rfl, rfl⟩, rfl, fun _ => rfl, rfl, rfl, rfl, rfl⟩
  · obtain rfl := Host.Outcome.next.inj ((exec_otc s).symm.trans answer)
    exact ⟨memoryKept_of_eq rfl rfl, ⟨rfl, rfl, rfl⟩, rfl, nofun, rfl, rfl, rfl, rfl⟩

/-- Settles O41: STA completed, so memory is the written one, and the next step runs the word it stored there. -/
theorem storeIsSeenByNextFetch : Obligations.StoreIsSeenByNextFetch := by
  intro s t a i canonical running idle answer running' atOperand decoded
  obtain ⟨inRange, rfl⟩ | ⟨outside, rfl⟩ := writeOperand_cases ((exec_sta a s).symm.trans answer)
  · have fetched : fetch (advance { s with mem := s.mem.write a.toNat s.acc }) = some s.acc := by
      rw [fetch_eq_wordAt, atOperand]
      exact wordAt_write_same canonical _ _ inRange
    exact ⟨fetched, step_eq_exec running' idle fetched decoded⟩
  · cases running'

end Sys2Proof.Machine
end

section
/-! One attempt of the input protocol (44_io.md R170, R179). `Reader.scan` runs the byte-level table over bytes alone,
to the end of an attempt; `readFrom` is tied to it, and on whole lines it ends as R170 to R177 say. -/

namespace Sys2Proof.Machine

/-! ### The table of R179, row by row -/

section
variable {cfg : Config} {c : Byte}

theorem onByte_lead_skipped (skipped : isSkipped cfg c = true) :
    Reader.onByte cfg .lead c = .goto .lead := if_pos skipped

theorem onByte_lead_sign (kept : isSkipped cfg c = false) (sign : isSign cfg c = true) :
    Reader.onByte cfg .lead c = .goto (.sign (c = charMinus)) := by
  simp [Reader.onByte, kept, sign]

/-- Off a sign, the first byte of a token is treated alike by the lead and after a sign. -/
theorem onByte_lead_unsigned (kept : isSkipped cfg c = false) (unsigned : isSign cfg c = false) :
    Reader.onByte cfg .lead c = Reader.onByte cfg (.sign false) c := by
  simp [Reader.onByte, kept, unsigned]

theorem onByte_sign_digit {neg : Bool} (digit : isDigit c = true) :
    Reader.onByte cfg (.sign neg) c = .goto (.digits neg (digitValue c)) := if_pos digit

theorem onByte_sign_other {neg : Bool} (other : isDigit c = false) :
    Reader.onByte cfg (.sign neg) c = Reader.onByte cfg (.discard .notInteger) c := by
  simp [Reader.onByte, other]

theorem onByte_digits_digit {neg : Bool} {mag : Nat} (digit : isDigit c = true) :
    Reader.onByte cfg (.digits neg mag) c = .goto (.digits neg (10 * mag + digitValue c)) := if_pos digit

theorem onByte_digits_other {neg : Bool} {mag : Nat} (other : isDigit c = false) :
    Reader.onByte cfg (.digits neg mag) c = Reader.onByte cfg (.trail neg mag) c := by
  simp [Reader.onByte, other]

theorem onByte_trail_blank {neg : Bool} {mag : Nat} (blank : isBlank c = true) :
    Reader.onByte cfg (.trail neg mag) c = .goto (.trail neg mag) := if_pos blank

theorem isBlank_LF : isBlank charLF = false := by decide

theorem isDigit_LF : isDigit charLF = false := by decide

theorem onByte_trail_accept {neg : Bool} {mag : Nat} (inRange : inWordRange (tokenValue neg mag) = true) :
    Reader.onByte cfg (.trail neg mag) charLF = .accept (tokenValue neg mag) := by
  simp [Reader.onByte, endOfToken, isBlank_LF, inRange]

theorem onByte_trail_other {neg : Bool} {mag : Nat} (notBlank : isBlank c = false)
    (refused : (c = charLF && inWordRange (tokenValue neg mag)) = false) :
    Reader.onByte cfg (.trail neg mag) c = Reader.onByte cfg (.discard .malformed) c := by
  simp [Reader.onByte, endOfToken, notBlank, refused]

theorem onByte_discard_LF (d : DiagKind) : Reader.onByte cfg (.discard d) charLF = .reject d := by
  simp [Reader.onByte, discardByte]

theorem onByte_discard_other {d : DiagKind} (inLine : c ≠ charLF) :
    Reader.onByte cfg (.discard d) c = .goto (.discard d) := if_neg inLine

end

/-! ### An attempt over bytes -/

/-- The table of R179 run over bytes to the end of the attempt it is in, with the bytes left unread. -/
def Reader.scan (cfg : Config) : Reader → List Byte → Attempt
  | _, [] => .exhausted
  | r, c :: cs =>
    match r.onByte cfg c with
    | .goto r' => Reader.scan cfg r' cs
    | .accept n => .accepted n cs
    | .reject d => .rejected d cs

section
variable {cfg : Config} {c : Byte} {cs : List Byte} {r r' : Reader}

theorem scan_goto (move : r.onByte cfg c = .goto r') : r.scan cfg (c :: cs) = r'.scan cfg cs := by
  rw [Reader.scan, move]

theorem scan_accept {n : Int} (move : r.onByte cfg c = .accept n) : r.scan cfg (c :: cs) = .accepted n cs := by
  rw [Reader.scan, move]

theorem scan_reject {d : DiagKind} (move : r.onByte cfg c = .reject d) : r.scan cfg (c :: cs) = .rejected d cs := by
  rw [Reader.scan, move]

/-- Readers that treat the first byte alike end alike. -/
theorem scan_congr (alike : r.onByte cfg c = r'.onByte cfg c) : r.scan cfg (c :: cs) = r'.scan cfg (c :: cs) := by
  rw [Reader.scan, Reader.scan, alike]

/-- Bytes on which a reader stays where it is are passed over. -/
theorem scan_append_of_stays {pre bs : List Byte} (stays : ∀ c ∈ pre, r.onByte cfg c = .goto r) :
    r.scan cfg (pre ++ bs) = r.scan cfg bs := by
  induction pre with
  | nil => rfl
  | cons c pre ih =>
    obtain ⟨first, later⟩ := List.forall_mem_cons.1 stays
    rw [List.cons_append, scan_goto first, ih later]

end

/-! ### `readFrom` by attempts -/

/-- `n` bytes of the input consumed. -/
def takeBytes (n : Nat) (s : State) : State := { s with inPos := s.inPos + n }

theorem takeBytes_takeByte (n : Nat) (s : State) : takeBytes n (takeByte s) = takeBytes (n + 1) s := by
  simp only [takeBytes, takeByte, Nat.add_assoc, Nat.add_comm 1 n]

/-- The state the next attempt starts from, where one failed on `n` bytes: with its diagnostic, and a prompt
(44_io.md R177, R178). -/
def nextAttempt (d : DiagKind) (n : Nat) (s : State) : State := startAttempt (diagEmit (diagText s.cfg d) (takeBytes n s))

/-- Where the attempt runs out of bytes, so does the protocol. -/
theorem readFrom_of_scan_exhausted {bs : List Byte} {r : Reader} {s : State} (ends : r.scan s.cfg bs = .exhausted) :
    ∃ r', readFrom bs r s = inputExhausted r' (takeBytes bs.length s) := by
  induction bs generalizing r s with
  | nil => exact ⟨r, rfl⟩
  | cons c cs ih =>
    cases move : r.onByte s.cfg c with
    | goto r' =>
      rw [scan_goto move] at ends
      rw [readFrom_goto move, List.length_cons, ← takeBytes_takeByte]
      exact ih (s := takeByte s) ends
    | accept n => rw [scan_accept move] at ends; cases ends
    | reject d => rw [scan_reject move] at ends; cases ends

/-- Where the attempt returns a value, the protocol writes it and is done (44_io.md R151). -/
theorem readFrom_of_scan_accepted {bs rest : List Byte} {n : Int} {r : Reader} {s : State}
    (ends : r.scan s.cfg bs = .accepted n rest) :
    ∃ used, bs = used ++ rest ∧ readFrom bs r s = .next (advance (setAcc (word n) (takeBytes used.length s))) := by
  induction bs generalizing r s with
  | nil => cases ends
  | cons c cs ih =>
    cases move : r.onByte s.cfg c with
    | goto r' =>
      rw [scan_goto move] at ends
      obtain ⟨used, rfl, answer⟩ := ih (s := takeByte s) ends
      refine ⟨c :: used, rfl, ?_⟩
      rw [readFrom_goto move, answer, takeBytes_takeByte, List.length_cons]
    | accept m =>
      rw [scan_accept move] at ends
      obtain ⟨rfl, rfl⟩ := Attempt.accepted.inj ends
      exact ⟨[c], rfl, readFrom_accept move⟩
    | reject d => rw [scan_reject move] at ends; cases ends

/-- Where the attempt fails, the protocol emits its diagnostic and starts the next one (44_io.md R177). -/
theorem readFrom_of_scan_rejected {bs rest : List Byte} {d : DiagKind} {r : Reader} {s : State}
    (ends : r.scan s.cfg bs = .rejected d rest) :
    ∃ used, bs = used ++ rest ∧ used ≠ [] ∧
      readFrom bs r s = readFrom rest .lead (nextAttempt d used.length s) := by
  induction bs generalizing r s with
  | nil => cases ends
  | cons c cs ih =>
    cases move : r.onByte s.cfg c with
    | goto r' =>
      rw [scan_goto move] at ends
      obtain ⟨used, rfl, -, answer⟩ := ih (s := takeByte s) ends
      refine ⟨c :: used, rfl, List.cons_ne_nil _ _, ?_⟩
      rw [readFrom_goto move, answer, nextAttempt, takeBytes_takeByte, List.length_cons, takeByte_cfg, nextAttempt]
    | accept n => rw [scan_accept move] at ends; cases ends
    | reject e =>
      rw [scan_reject move] at ends
      obtain ⟨rfl, rfl⟩ := Attempt.rejected.inj ends
      exact ⟨[c], rfl, List.cons_ne_nil _ _, readFrom_reject move⟩

/-! ### Lines -/

section
variable {cfg : Config}

/-- A discarded line is consumed through its LF (44_io.md R175). -/
theorem scan_discard_line {d : DiagKind} {body rest : List Byte} (inLine : charLF ∉ body) :
    Reader.scan cfg (.discard d) (body ++ [charLF] ++ rest) = .rejected d rest := by
  rw [List.append_assoc, scan_append_of_stays fun c mem => onByte_discard_other fun isLF => inLine (isLF ▸ mem)]
  exact scan_reject (onByte_discard_LF d)

/-- A reader that treats the first byte of a line's rest as the discard does, discards the line. -/
theorem scan_of_discards {r : Reader} {d : DiagKind} {body rest : List Byte} (inLine : charLF ∉ body)
    (discards : ∀ c, (body ++ [charLF]).head? = some c → r.onByte cfg c = Reader.onByte cfg (.discard d) c) :
    r.scan cfg (body ++ [charLF] ++ rest) = .rejected d rest := by
  rw [← scan_discard_line inLine]
  cases body with
  | nil => exact scan_congr (discards _ rfl)
  | cons c body => exact scan_congr (discards _ rfl)

/-- A run of digits is read into the magnitude (44_io.md R170). -/
theorem scan_digits_append {neg : Bool} {mag : Nat} {ds bs : List Byte} (digits : ds.all isDigit = true) :
    Reader.scan cfg (.digits neg mag) (ds ++ bs) =
      Reader.scan cfg (.digits neg (ds.foldl (fun mag c => 10 * mag + digitValue c) mag)) bs := by
  induction ds generalizing mag with
  | nil => rfl
  | cons c ds ih =>
    obtain ⟨first, later⟩ := Bool.and_eq_true_iff.1 digits
    rw [List.cons_append, scan_goto (onByte_digits_digit first), ih later, List.foldl_cons]

/-- A token's digits are read into their decimal value, from the sign on (44_io.md R170). -/
theorem scan_sign_digits {neg : Bool} {ds bs : List Byte} (run : DigitRun ds) :
    Reader.scan cfg (.sign neg) (ds ++ bs) = Reader.scan cfg (.digits neg (decimalValue ds)) bs := by
  obtain ⟨nonempty, digits⟩ := run
  cases ds with
  | nil => exact absurd rfl nonempty
  | cons c ds =>
    obtain ⟨first, later⟩ := Bool.and_eq_true_iff.1 digits
    rw [List.cons_append, scan_goto (onByte_sign_digit first), scan_digits_append later, decimalValue, List.foldl_cons,
      Nat.mul_zero, Nat.zero_add]

theorem scan_trail_blanks {neg : Bool} {mag : Nat} {post bs : List Byte} (blanks : post.all isBlank = true) :
    Reader.scan cfg (.trail neg mag) (post ++ bs) = Reader.scan cfg (.trail neg mag) bs :=
  scan_append_of_stays fun c mem => onByte_trail_blank (List.all_eq_true.1 blanks c mem)

/-- Blanks after a token, and what follows them, are read alike by the digits and the trail, but for a digit that
follows the digits at once (44_io.md R176). -/
theorem scan_digits_blanks {neg : Bool} {mag : Nat} {post bs : List Byte} (blanks : post.all isBlank = true)
    (apart : ∀ c, bs.head? = some c → post = [] → isDigit c = false) :
    Reader.scan cfg (.digits neg mag) (post ++ bs) = Reader.scan cfg (.trail neg mag) bs := by
  rw [← scan_trail_blanks blanks]
  cases post with
  | nil =>
    cases bs with
    | nil => rfl
    | cons c bs => exact scan_congr (onByte_digits_other (apart c rfl rfl))
  | cons p post =>
    have blank : isBlank p = true := (Bool.and_eq_true_iff.1 blanks).1
    have notDigit : isDigit p = false := by
      simp only [isBlank, Bool.or_eq_true, decide_eq_true_eq] at blank
      rcases blank with rfl | rfl <;> decide
    exact scan_congr (onByte_digits_other notDigit)

/-- Blanks before a token are passed over (44_io.md R172). -/
theorem scan_lead_blanks {pre bs : List Byte} (blanks : pre.all isBlank = true) :
    Reader.scan cfg .lead (pre ++ bs) = Reader.scan cfg .lead bs :=
  scan_append_of_stays fun c mem => onByte_lead_skipped (by simp [isSkipped, List.all_eq_true.1 blanks c mem])

/-- A byte of a token's start: no blank, no LF and no sign. -/
def StartsUnsigned (plus : Bool) (c : Byte) : Prop :=
  isBlank c = false ∧ c ≠ charLF ∧ c ≠ charMinus ∧ (plus = true → c ≠ charPlus)

theorem isSkipped_of_startsUnsigned {c : Byte} (starts : StartsUnsigned cfg.acceptPlus c) :
    isSkipped cfg c = false := by
  obtain ⟨notBlank, notLF, -, -⟩ := starts
  simp [isSkipped, notBlank, notLF]

theorem isSign_of_startsUnsigned {c : Byte} (starts : StartsUnsigned cfg.acceptPlus c) : isSign cfg c = false := by
  obtain ⟨-, -, notMinus, notPlus⟩ := starts
  simpa [isSign, notMinus] using notPlus

/-- A digit starts an unsigned token. -/
theorem startsUnsigned_of_digit {plus : Bool} {c : Byte} (digit : isDigit c = true) : StartsUnsigned plus c := by
  have ne : ∀ x : Byte, isDigit x = false → c ≠ x := fun x other same => by
    rw [same, other] at digit
    cases digit
  have notBlank : isBlank c = false := by
    simp [isBlank, ne charSP (by decide), ne charTAB (by decide)]
  exact ⟨notBlank, ne _ (by decide), ne _ (by decide), fun _ => ne _ (by decide)⟩

/-- A sign is read from the lead, and where there is none what follows is read as after one (44_io.md R173). -/
theorem scan_lead_sign {sg bs : List Byte} (sign : SignBytes cfg.acceptPlus sg)
    (unsigned : sg = [] → ∃ c, bs.head? = some c ∧ StartsUnsigned cfg.acceptPlus c) :
    Reader.scan cfg .lead (sg ++ bs) = Reader.scan cfg (.sign (sg = [charMinus])) bs := by
  obtain rfl | rfl | ⟨plus, rfl⟩ := sign
  · obtain ⟨c, first, starts⟩ := unsigned rfl
    cases bs with
    | nil => cases first
    | cons d bs =>
      obtain rfl : d = c := Option.some.inj first
      exact scan_congr (onByte_lead_unsigned (isSkipped_of_startsUnsigned starts) (isSign_of_startsUnsigned starts))
  · have minus : isSign cfg charMinus = true := by simp [isSign]
    have kept : isSkipped cfg charMinus = false := by
      simp [isSkipped, show isBlank charMinus = false by decide, show charMinus ≠ charLF by decide]
    simpa using scan_goto (cs := bs) (onByte_lead_sign kept minus)
  · have isPlus : isSign cfg charPlus = true := by simp [isSign, plus]
    have kept : isSkipped cfg charPlus = false := by
      simp [isSkipped, show isBlank charPlus = false by decide, show charPlus ≠ charLF by decide]
    simpa using scan_goto (cs := bs) (onByte_lead_sign kept isPlus)

/-- A token is read from the lead into its sign and magnitude (44_io.md R170). -/
theorem scan_lead_token {pre sg ds bs : List Byte} (blanks : pre.all isBlank = true)
    (sign : SignBytes cfg.acceptPlus sg)
    (digits : DigitRun ds) :
    Reader.scan cfg .lead (pre ++ sg ++ ds ++ bs) =
      Reader.scan cfg (.digits (sg = [charMinus]) (decimalValue ds)) bs := by
  have unsigned : ∃ c, (ds ++ bs).head? = some c ∧ StartsUnsigned cfg.acceptPlus c := by
    obtain ⟨nonempty, allDigits⟩ := digits
    cases ds with
    | nil => exact absurd rfl nonempty
    | cons c ds => exact ⟨c, rfl, startsUnsigned_of_digit (Bool.and_eq_true_iff.1 allDigits).1⟩
  rw [List.append_assoc, List.append_assoc, scan_lead_blanks blanks, scan_lead_sign sign fun _ => unsigned,
    scan_sign_digits digits]

/-- An accepted line returns its value and is consumed exactly (44_io.md R174, R176). -/
theorem scan_acceptedLine {line rest : List Byte} {n : Int} (accepted : AcceptedLine cfg.acceptPlus line n) :
    Reader.scan cfg .lead (line ++ rest) = .accepted n rest := by
  obtain ⟨pre, sg, ds, post, rfl, preBlank, sign, digits, postBlank, rfl, inRange⟩ := accepted
  rw [List.append_assoc, List.append_assoc _ post, scan_lead_token preBlank sign digits,
    scan_digits_blanks postBlank fun c first _ => ?_]
  · exact scan_accept (onByte_trail_accept inRange)
  · rw [← Option.some.inj first]
    exact isDigit_LF

/-- A line with no integer token fails the attempt (44_io.md R170, R173). -/
theorem scan_noTokenLine {line rest : List Byte} (noToken : NoTokenLine cfg.acceptPlus line) :
    Reader.scan cfg .lead (line ++ rest) = .rejected .notInteger rest := by
  obtain ⟨pre, sg, body, rfl, preBlank, sign, inLine, nonempty, start⟩ := noToken
  have unsigned : sg = [] → ∃ c, (body ++ [charLF] ++ rest).head? = some c ∧ StartsUnsigned cfg.acceptPlus c := by
    rintro rfl
    cases body with
    | nil => exact absurd rfl nonempty
    | cons c body =>
      obtain ⟨notBlank, notMinus, notPlus⟩ := (start c rfl).2 rfl
      exact ⟨c, rfl, notBlank, fun isLF => inLine (by simp [isLF]), notMinus, notPlus⟩
  have regroup : pre ++ sg ++ body ++ [charLF] ++ rest = pre ++ (sg ++ (body ++ [charLF] ++ rest)) := by
    simp only [List.append_assoc]
  rw [regroup, scan_lead_blanks preBlank, scan_lead_sign sign unsigned]
  refine scan_of_discards inLine fun c first => onByte_sign_other ?_
  cases body with
  | nil => rw [← Option.some.inj first]; exact isDigit_LF
  | cons d body => exact (start c first).1

/-- A line whose token is followed by other content or is out of range fails the attempt (44_io.md R174). -/
theorem scan_badTokenLine {line rest : List Byte} (bad : BadTokenLine cfg.acceptPlus line) :
    Reader.scan cfg .lead (line ++ rest) = .rejected .malformed rest := by
  obtain ⟨pre, sg, ds, post, tail, rfl, preBlank, sign, digits, postBlank, inLine, outOfRange, start⟩ := bad
  have regroup : pre ++ sg ++ ds ++ post ++ tail ++ [charLF] ++ rest =
      pre ++ sg ++ ds ++ (post ++ (tail ++ [charLF] ++ rest)) := by
    simp only [List.append_assoc]
  rw [regroup, scan_lead_token preBlank sign digits, scan_digits_blanks postBlank fun c first noBlank => ?_]
  · refine scan_of_discards inLine fun c first => ?_
    cases tail with
    | nil =>
      obtain rfl := Option.some.inj first
      exact onByte_trail_other isBlank_LF (by simpa [tokenOf] using outOfRange rfl)
    | cons d tail =>
      obtain rfl := Option.some.inj first
      have notLF : d ≠ charLF := fun isLF => inLine (by simp [isLF])
      exact onByte_trail_other (start d rfl).1 (by simp [notLF])
  · cases tail with
    | nil => rw [← Option.some.inj first]; exact isDigit_LF
    | cons d tail => exact (start c first).2 noBlank

/-- A blank line is an attempt with no token where blank lines are not skipped (44_io.md R172). -/
theorem scan_blankLine_rejected {line rest : List Byte} (blank : BlankLine line)
    (keeps : cfg.blankLineSkipped = false) :
    Reader.scan cfg .lead (line ++ rest) = .rejected .notInteger rest := by
  obtain ⟨pre, rfl, blanks⟩ := blank
  rw [List.append_assoc, scan_lead_blanks blanks]
  refine scan_reject ((onByte_lead_unsigned ?_ ?_).trans ((onByte_sign_other isDigit_LF).trans (onByte_discard_LF _)))
  · simp [isSkipped, isBlank_LF, keeps]
  · simp [isSign, show charLF ≠ charMinus by decide, show charLF ≠ charPlus by decide]

end

end Sys2Proof.Machine
end

section
/-! INP on a whole line (44_io.md R170 to R181), and the decimal text OUT prints (00_scope.md section 6), which INP
reads back. -/

namespace Sys2Proof.Machine

/-! ### INP by its first attempt -/

theorem inputLeft_takeBytes {s : State} {used rest : List Byte} (left : s.inputLeft = used ++ rest) :
    (takeBytes used.length s).inputLeft = rest := by
  rw [State.inputLeft] at left
  rw [State.inputLeft, takeBytes, ← List.drop_drop, left, List.drop_left]

/-- A state after a failed attempt of `n` bytes, with its prompt and its diagnostic (44_io.md R177, R178). -/
def afterRejected (d : DiagKind) (n : Nat) (s : State) : State :=
  diagEmit (diagText s.cfg d) (takeBytes n (startAttempt s))

section
variable {s : State} {line rest : List Byte} (left : s.inputLeft = line ++ rest)
include left

/-- INP on an attempt that is accepted. -/
theorem exec_inp_of_accepted {n : Int} (ends : Reader.scan s.cfg .lead (line ++ rest) = .accepted n rest) :
    exec .inp s = .next (advance (setAcc (word n) (takeBytes line.length (startAttempt s)))) := by
  obtain ⟨used, same, answer⟩ := readFrom_of_scan_accepted (s := startAttempt s) ends
  rw [exec_inp, left, answer, List.append_cancel_right same]

/-- INP on an attempt that fails is INP from the state the attempt leaves. -/
theorem exec_inp_of_rejected {d : DiagKind} (ends : Reader.scan s.cfg .lead (line ++ rest) = .rejected d rest) :
    exec .inp s = exec .inp (afterRejected d line.length s) := by
  obtain ⟨used, same, -, answer⟩ := readFrom_of_scan_rejected (s := startAttempt s) ends
  have left' : (afterRejected d line.length s).inputLeft = rest := inputLeft_takeBytes (s := startAttempt s) left
  rw [exec_inp, exec_inp, left, left', answer, ← List.append_cancel_right same]
  rfl

end

/-- Settles O25: the attempt is accepted and consumes the line. -/
theorem inpAcceptsLine : Obligations.InpAcceptsLine := fun _ _ _ _ left accepted =>
  exec_inp_of_accepted left (scan_acceptedLine accepted)

/-- Settles O26: the attempt fails with no token. -/
theorem inpRetriesAfterNoToken : Obligations.InpRetriesAfterNoToken := fun _ _ _ left noToken =>
  exec_inp_of_rejected left (scan_noTokenLine noToken)

/-- Settles O27: the attempt fails after its token. -/
theorem inpRetriesAfterBadToken : Obligations.InpRetriesAfterBadToken := fun _ _ _ left bad =>
  exec_inp_of_rejected left (scan_badTokenLine bad)

/-- Bytes on which a reader stays where it is are consumed with no other effect. -/
theorem readFrom_append_of_stays {r : Reader} {s : State} {pre bs : List Byte}
    (stays : ∀ c ∈ pre, r.onByte s.cfg c = .goto r) :
    readFrom (pre ++ bs) r s = readFrom bs r (takeBytes pre.length s) := by
  induction pre generalizing s with
  | nil => rfl
  | cons c pre ih =>
    obtain ⟨first, later⟩ := List.forall_mem_cons.1 stays
    rw [List.cons_append, readFrom_goto first, ih (s := takeByte s) later, takeBytes_takeByte, List.length_cons]

theorem isSkipped_of_mem_blankLine {cfg : Config} {line : List Byte} (blank : BlankLine line)
    (skips : cfg.blankLineSkipped = true) : ∀ c ∈ line, isSkipped cfg c = true := by
  obtain ⟨pre, rfl, blanks⟩ := blank
  intro c mem
  obtain mem | isLF := List.mem_append.1 mem
  · simp [isSkipped, List.all_eq_true.1 blanks c mem]
  · simp [isSkipped, skips, List.mem_singleton.1 isLF]

/-- Settles O28: a blank line is bytes the lead passes over, or an attempt with no token. -/
theorem inpOnBlankLine : Obligations.InpOnBlankLine := by
  intro s line rest left blank
  refine ⟨fun skips => ?_, fun keeps => exec_inp_of_rejected left (scan_blankLine_rejected blank keeps)⟩
  have left' : (takeBytes line.length s).inputLeft = rest := inputLeft_takeBytes left
  have passed := readFrom_append_of_stays (s := startAttempt s) (bs := rest)
    fun c mem => onByte_lead_skipped (isSkipped_of_mem_blankLine blank skips c mem)
  calc exec .inp s = readFrom (line ++ rest) .lead (startAttempt s) := by rw [exec_inp, left]
    _ = readFrom rest .lead (takeBytes line.length (startAttempt s)) := passed
    _ = exec .inp (takeBytes line.length s) := by rw [exec_inp, left']; rfl

/-! ### Plain inputs -/

/-- States that agree on what a plain input decides: the registers, the output, and what is still to be read. -/
structure PlainAlike (s u : State) : Prop where
  acc : u.acc = s.acc
  ip : u.ip = s.ip
  run : u.run = s.run
  inPos : u.inPos = s.inPos
  out : u.out = s.out
  reader : u.reader = s.reader
  input : u.input = s.input
  prompt : promptOf u.cfg = promptOf s.cfg

namespace PlainAlike

variable {s u : State} (alike : PlainAlike s u)
include alike

theorem inputLeft : u.inputLeft = s.inputLeft := by rw [State.inputLeft, State.inputLeft, alike.input, alike.inPos]

theorem startAttempt : PlainAlike (startAttempt s) (startAttempt u) :=
  { alike with out := congrArg₂ (· ++ ·) alike.out alike.prompt }

theorem takeBytes (n : Nat) : PlainAlike (takeBytes n s) (takeBytes n u) :=
  { alike with inPos := congrArg (· + n) alike.inPos }

theorem afterRejected (d : DiagKind) (n : Nat) : PlainAlike (afterRejected d n s) (afterRejected d n u) :=
  { alike.startAttempt.takeBytes n with }

theorem accepted (v : Word) : PlainAlike (advance (setAcc v s)) (advance (setAcc v u)) :=
  { alike with acc := rfl, ip := congrArg (· + 1) alike.ip }

/-- Out of bytes, both raise INPUT_EOF or both wait. -/
theorem inputExhausted {r : Reader} {t : State} (answer : inputExhausted r s = .next t) :
    ∃ v, Machine.inputExhausted r u = .next v ∧ PlainAlike t v := by
  rw [Machine.inputExhausted] at answer ⊢
  have sameEnd : u.input.ended = s.input.ended := congrArg InputPort.ended alike.input
  split at answer
  · next ended =>
    obtain rfl := Host.Outcome.next.inj answer
    exact ⟨_, if_pos (sameEnd.trans ended), { alike with run := rfl }⟩
  · next notEnded =>
    obtain rfl := Host.Outcome.next.inj answer
    exact ⟨_, if_neg (sameEnd ▸ notEnded), { alike with reader := rfl }⟩

end PlainAlike

/-- Where `'+'` is no sign a line is accepted, it is accepted where it is one. -/
theorem acceptedLine_of_withoutPlus {plus : Bool} {line : List Byte} {n : Int} (accepted : AcceptedLine false line n) :
    AcceptedLine plus line n := by
  obtain ⟨pre, sg, ds, post, shape, preBlank, sign, rest⟩ := accepted
  exact ⟨pre, sg, ds, post, shape, preBlank, sign.imp_right (Or.imp_right (absurd ·.1 Bool.false_ne_true)), rest⟩

/-- A rejected line of a plain input holds no token, whether `'+'` is a sign or not (44_io.md R181). -/
theorem noTokenLine_of_plainRejected {plus : Bool} {line : List Byte} (rejected : PlainRejectedLine line) :
    NoTokenLine plus line := by
  obtain ⟨pre, c, body, shape, preBlank, inLine, notBlank, notDigit, notMinus, notPlus, -⟩ := rejected
  refine ⟨pre, [], c :: body, by simpa using shape, preBlank, .inl rfl, inLine, List.cons_ne_nil _ _, fun d first => ?_⟩
  obtain rfl := Option.some.inj first
  exact ⟨notDigit, fun _ => ⟨notBlank, notMinus, fun _ => notPlus⟩⟩

/-- On whole plain lines, INP ends alike from states that agree on what a plain input decides. -/
theorem exec_inp_plainAlike {lines : List (List Byte)} {s u t : State}
    (plain : ∀ l ∈ lines, (∃ n, AcceptedLine false l n) ∨ PlainRejectedLine l) (left : s.inputLeft = lines.flatten)
    (alike : PlainAlike s u) (answer : exec .inp s = .next t) : ∃ v, exec .inp u = .next v ∧ PlainAlike t v := by
  induction lines generalizing s u with
  | nil =>
    have none : s.inputLeft = [] := left
    rw [exec_inp, none, readFrom_nil] at answer
    rw [exec_inp, alike.inputLeft, none, readFrom_nil]
    exact alike.startAttempt.inputExhausted answer
  | cons line lines ih =>
    obtain ⟨first, later⟩ := List.forall_mem_cons.1 plain
    rw [List.flatten_cons] at left
    have left' := alike.inputLeft.trans left
    obtain ⟨n, accepted⟩ | rejected := first
    · rw [exec_inp_of_accepted left (scan_acceptedLine (acceptedLine_of_withoutPlus accepted))] at answer
      obtain rfl := Host.Outcome.next.inj answer
      exact ⟨_, exec_inp_of_accepted left' (scan_acceptedLine (acceptedLine_of_withoutPlus accepted)),
        (alike.startAttempt.takeBytes _).accepted _⟩
    · rw [exec_inp_of_rejected left (scan_noTokenLine (noTokenLine_of_plainRejected rejected))] at answer
      rw [exec_inp_of_rejected left' (scan_noTokenLine (noTokenLine_of_plainRejected rejected))]
      exact ih later (s := afterRejected _ _ s) (inputLeft_takeBytes (s := startAttempt s) left)
        (alike.afterRejected _ _) answer

/-- Settles O33: the open parameters and texts leave alone what a plain input decides. -/
theorem plainInputsDoNotDependOnOpenParameters : Obligations.PlainInputsDoNotDependOnOpenParameters := by
  rintro s t blank plus ni mf ⟨lines, left, plain⟩ answer
  have alike : PlainAlike s { s with cfg := { s.cfg with
      blankLineSkipped := blank, acceptPlus := plus, diagNotInteger := ni, diagMalformed := mf } } :=
    ⟨rfl, rfl, rfl, rfl, rfl, rfl, rfl, rfl⟩
  obtain ⟨u, answer', same⟩ := exec_inp_plainAlike plain left alike answer
  exact ⟨u, answer', same.acc, same.inPos, same.out, same.ip, same.run, same.reader⟩

/-! ### Decimal text -/

theorem digitChar_toNat {d : Nat} (small : d < 10) : (digitChar d).toNat = 0x30 + d := by
  rw [digitChar, BitVec.toNat_ofNat]
  omega

theorem digitValue_digitChar {d : Nat} (small : d < 10) : digitValue (digitChar d) = d := by
  rw [digitValue, digitChar_toNat small, Nat.add_sub_cancel_left]

theorem isDigit_digitChar {d : Nat} (small : d < 10) : isDigit (digitChar d) = true := by
  rw [isDigit, digitChar_toNat small]
  simp only [Bool.and_eq_true, decide_eq_true_eq]
  omega

theorem digitChar_ne_zero {d : Nat} (small : d < 10) (positive : d ≠ 0) : digitChar d ≠ 0x30 := fun same => by
  have number := digitChar_toNat small
  simp only [same, BitVec.reduceToNat] at number
  omega

theorem decimalValue_concat (ds : List Byte) (c : Byte) :
    decimalValue (ds ++ [c]) = 10 * decimalValue ds + digitValue c := by
  simp [decimalValue, List.foldl_append]

/-- The digits of a number of one digit. -/
theorem natDigits_of_lt {n : Nat} (small : n < 10) (fuel : Nat) : natDigits fuel n = [digitChar n] := by
  cases fuel with
  | zero => rfl
  | succ fuel => exact if_pos small

/-- The digits of a longer number: those of its tenth part, and its last one. -/
theorem natDigits_of_ge {n : Nat} (large : 10 ≤ n) (fuel : Nat) :
    natDigits (fuel + 1) n = natDigits fuel (n / 10) ++ [digitChar (n % 10)] := if_neg (Nat.not_lt.2 large)

/-- With fuel enough, the digits of a number are a digit run of its value with no leading zero (00_scope.md R14). -/
theorem natDigits_spec {fuel n : Nat} (enough : n ≤ fuel) :
    DigitRun (natDigits fuel n) ∧ decimalValue (natDigits fuel n) = n ∧
      (n ≠ 0 → (natDigits fuel n).head? ≠ some 0x30) := by
  induction fuel generalizing n with
  | zero =>
    obtain rfl := Nat.le_zero.1 enough
    exact ⟨⟨by decide, by decide⟩, by decide, fun positive => absurd rfl positive⟩
  | succ fuel ih =>
    rcases Nat.lt_or_ge n 10 with small | large
    · rw [natDigits_of_lt small]
      refine ⟨⟨List.cons_ne_nil _ _, by simp [isDigit_digitChar small]⟩, ?_, fun positive => ?_⟩
      · simp [decimalValue, digitValue_digitChar small]
      · simpa using digitChar_ne_zero small positive
    · have last : n % 10 < 10 := Nat.mod_lt _ (by decide)
      obtain ⟨⟨nonempty, digits⟩, value, noZero⟩ := ih (n := n / 10) (by omega)
      rw [natDigits_of_ge large]
      refine ⟨⟨by simp, by simp [digits, isDigit_digitChar last]⟩, ?_, fun _ => ?_⟩
      · rw [decimalValue_concat, value, digitValue_digitChar last]
        omega
      · rw [List.head?_append_of_ne_nil _ nonempty]
        exact noZero (by omega)

/-- The digits of a signed number's text. -/
theorem dec_eq (n : Int) : dec n = (if n < 0 then [charMinus] else []) ++ natDigits n.natAbs n.natAbs := by
  unfold dec
  split <;> rfl

/-- Settles O35: the sign, then the digits of the magnitude. -/
theorem decimalText : Obligations.DecimalText := by
  intro n
  obtain ⟨run, value, noZero⟩ := natDigits_spec (Nat.le_refl n.natAbs)
  refine ⟨_, dec_eq n, run, value, fun leading => ?_⟩
  have zero : n.natAbs = 0 := by_contra fun positive => noZero positive leading
  rw [zero]
  rfl

/-- A value's text, ended by LF, is an accepted line of that value where it is in the signed range. -/
theorem acceptedLine_dec {plus : Bool} {n : Int} (inRange : inWordRange n = true) :
    AcceptedLine plus (dec n ++ [charLF]) n := by
  obtain ⟨run, value, -⟩ := natDigits_spec (Nat.le_refl n.natAbs)
  refine ⟨[], if n < 0 then [charMinus] else [], natDigits n.natAbs n.natAbs, [], by simp [dec_eq], rfl, ?_, run, rfl, ?_,
    inRange⟩
  · split
    · exact .inr (.inl rfl)
    · exact .inl rfl
  · rw [tokenOf, value]
    split
    · simp only [tokenValue, decide_true, if_true]
      omega
    · simp only [tokenValue, reduceCtorEq, decide_false, Bool.false_eq_true, if_false]
      omega

theorem inWordRange_sval (w : Word) : inWordRange (sval w) = true := by
  have := w.isLt
  simp only [inWordRange, Bool.and_eq_true, decide_eq_true_eq]
  rcases sval_cases w with ⟨below, value⟩ | ⟨above, value⟩ <;> omega

/-- Settles O36: what OUT appended is an accepted line of the value of `acc`. -/
theorem inpReadsBackWhatOutPrints : Obligations.InpReadsBackWhatOutPrints := by
  intro u t s printed rest outOfLine answer appended left
  rw [exec_out, writeNum_outOfLine outOfLine] at answer
  obtain rfl := Host.Outcome.next.inj answer
  obtain rfl : dec (sval u.acc) ++ [charLF] = printed := List.append_cancel_left appended
  rw [inpAcceptsLine s _ rest (sval u.acc) left (acceptedLine_dec (inWordRange_sval u.acc)), word_sval]

end Sys2Proof.Machine
end

section
/-! INP and `readNum` (44_io.md R170, R179): an attempt of the byte-level table is an attempt of the loop, so the
protocol computes what the loop of attempts does, and INP ends in a value, an INPUT_EOF or a wait. -/

namespace Sys2Proof.Machine

/-! ### One attempt, by its scans -/

section
variable {cfg : Config}

/-- What follows a token's digits: blanks, and then the end of the line or content to be discarded (44_io.md R170). -/
def attemptTrail (neg : Bool) (mag : Nat) (bs : List Byte) : Attempt :=
  match bs.dropWhile isBlank with
  | [] => .exhausted
  | e :: es =>
    if e = charLF && inWordRange (tokenValue neg mag) then .accepted (tokenValue neg mag) es
    else rejectLine .malformed (e :: es)

theorem attemptToken_digit {neg : Bool} {d : Byte} {ds : List Byte} (digit : isDigit d = true) :
    attemptToken neg (d :: ds) =
      attemptTrail neg (decimalValue ((d :: ds).takeWhile isDigit)) ((d :: ds).dropWhile isDigit) := by
  rw [attemptToken, if_pos digit]
  rfl

theorem attemptToken_other {neg : Bool} {d : Byte} {ds : List Byte} (other : isDigit d = false) :
    attemptToken neg (d :: ds) = rejectLine .notInteger (d :: ds) := by
  simp [attemptToken, other]

theorem attempt_skipped {c : Byte} {cs : List Byte} (skipped : isSkipped cfg c = true) :
    attempt cfg (c :: cs) = attempt cfg cs := by
  rw [attempt, attempt, List.dropWhile_cons_of_pos skipped]

theorem attempt_kept {c : Byte} {cs : List Byte} (kept : isSkipped cfg c = false) :
    attempt cfg (c :: cs) = if isSign cfg c then attemptToken (c = charMinus) cs else attemptToken false (c :: cs) := by
  rw [attempt, List.dropWhile_cons_of_neg (by simp [kept])]

theorem attemptTrail_blank {neg : Bool} {mag : Nat} {c : Byte} {cs : List Byte} (blank : isBlank c = true) :
    attemptTrail neg mag (c :: cs) = attemptTrail neg mag cs := by
  rw [attemptTrail, attemptTrail, List.dropWhile_cons_of_pos blank]

theorem attemptTrail_other {neg : Bool} {mag : Nat} {c : Byte} {cs : List Byte} (notBlank : isBlank c = false) :
    attemptTrail neg mag (c :: cs) =
      if c = charLF && inWordRange (tokenValue neg mag) then .accepted (tokenValue neg mag) cs
      else rejectLine .malformed (c :: cs) := by
  rw [attemptTrail, List.dropWhile_cons_of_neg (by simp [notBlank])]

theorem rejectLine_LF (d : DiagKind) (cs : List Byte) : rejectLine d (charLF :: cs) = .rejected d cs := rfl

theorem rejectLine_other {d : DiagKind} {c : Byte} {cs : List Byte} (inLine : c ≠ charLF) :
    rejectLine d (c :: cs) = rejectLine d cs := by
  rw [rejectLine, rejectLine, afterLine, if_neg inLine]

/-- The discard reads the line to its LF (44_io.md R175). -/
theorem scan_discard (d : DiagKind) (bs : List Byte) : Reader.scan cfg (.discard d) bs = rejectLine d bs := by
  induction bs with
  | nil => rfl
  | cons c cs ih =>
    by_cases isLF : c = charLF
    · rw [isLF, scan_reject (onByte_discard_LF d), rejectLine_LF]
    · rw [scan_goto (onByte_discard_other isLF), ih, rejectLine_other isLF]

/-- The trail reads blanks, and then ends or discards the line (44_io.md R176). -/
theorem scan_trail (neg : Bool) (mag : Nat) (bs : List Byte) :
    Reader.scan cfg (.trail neg mag) bs = attemptTrail neg mag bs := by
  induction bs with
  | nil => rfl
  | cons c cs ih =>
    cases blank : isBlank c with
    | true => rw [scan_goto (onByte_trail_blank blank), ih, attemptTrail_blank blank]
    | false =>
      rw [attemptTrail_other blank]
      cases accepted : (c = charLF && inWordRange (tokenValue neg mag) : Bool) with
      | true =>
        obtain ⟨isLF, inRange⟩ := Bool.and_eq_true_iff.1 accepted
        rw [of_decide_eq_true isLF, scan_accept (onByte_trail_accept inRange), if_pos rfl]
      | false => rw [scan_congr (onByte_trail_other blank accepted), scan_discard, if_neg Bool.false_ne_true]

/-- The digits are read into the magnitude, and then the trail goes on (44_io.md R170). -/
theorem scan_digits (neg : Bool) (mag : Nat) (bs : List Byte) :
    Reader.scan cfg (.digits neg mag) bs =
      attemptTrail neg ((bs.takeWhile isDigit).foldl (fun mag c => 10 * mag + digitValue c) mag)
        (bs.dropWhile isDigit) := by
  induction bs generalizing mag with
  | nil => rfl
  | cons c cs ih =>
    cases digit : isDigit c with
    | true =>
      rw [scan_goto (onByte_digits_digit digit), ih, List.takeWhile_cons_of_pos digit, List.dropWhile_cons_of_pos digit,
        List.foldl_cons]
    | false =>
      have other : ¬ isDigit c = true := by simp [digit]
      rw [scan_congr (onByte_digits_other digit), scan_trail, List.takeWhile_cons_of_neg other,
        List.dropWhile_cons_of_neg other, List.foldl_nil]

/-- After a sign the table reads the loop's token (44_io.md R170). -/
theorem scan_sign (neg : Bool) (bs : List Byte) : Reader.scan cfg (.sign neg) bs = attemptToken neg bs := by
  cases bs with
  | nil => rfl
  | cons c cs =>
    cases digit : isDigit c with
    | true =>
      rw [scan_goto (onByte_sign_digit digit), scan_digits, attemptToken_digit digit, List.takeWhile_cons_of_pos digit,
        List.dropWhile_cons_of_pos digit, decimalValue, List.foldl_cons, Nat.mul_zero, Nat.zero_add]
    | false => rw [scan_congr (onByte_sign_other digit), scan_discard, attemptToken_other digit]

/-- An attempt of the byte-level table is an attempt of the loop (44_io.md R170, R179). -/
theorem scan_lead (bs : List Byte) : Reader.scan cfg .lead bs = attempt cfg bs := by
  induction bs with
  | nil => rfl
  | cons c cs ih =>
    cases skipped : isSkipped cfg c with
    | true => rw [scan_goto (onByte_lead_skipped skipped), ih, attempt_skipped skipped]
    | false =>
      rw [attempt_kept skipped]
      cases sign : isSign cfg c with
      | true => rw [scan_goto (onByte_lead_sign skipped sign), scan_sign, if_pos rfl]
      | false => rw [scan_congr (onByte_lead_unsigned skipped sign), scan_sign, if_neg Bool.false_ne_true]

end

/-! ### The loop of attempts -/

/-- A state after failed attempts and `n` consumed bytes, with one diagnostic and one new prompt a failed attempt. -/
def afterAttempts (failed : List DiagKind) (n : Nat) (s : State) : State :=
  { s with
    inPos := s.inPos + n
    out := s.out ++ prompts s.cfg failed.length
    diag := s.diag ++ diagTexts s.cfg failed }

theorem afterAttempts_nil (n : Nat) (s : State) : afterAttempts [] n s = takeBytes n s := by
  simp [afterAttempts, takeBytes, prompts, diagTexts]

/-- A failed attempt of `m` bytes and then the others. -/
theorem afterAttempts_cons (d : DiagKind) (failed : List DiagKind) (m n : Nat) (s : State) :
    afterAttempts failed n (nextAttempt d m s) =
      afterAttempts (d :: failed) (m + n) s := by
  simp [afterAttempts, nextAttempt, startAttempt, outEmit, diagEmit, takeBytes, prompts, diagTexts, List.replicate_succ,
    Nat.add_assoc]

section
variable {cfg : Config} {fuel : Nat} {bs rest : List Byte}

theorem readAttempts_of_exhausted (ends : attempt cfg bs = .exhausted) :
    readAttempts cfg (fuel + 1) bs = { failed := [], result := none } := by
  rw [readAttempts, ends]

theorem readAttempts_of_accepted {n : Int} (ends : attempt cfg bs = .accepted n rest) :
    readAttempts cfg (fuel + 1) bs = { failed := [], result := some (n, rest) } := by
  rw [readAttempts, ends]

theorem readAttempts_of_rejected {d : DiagKind} (ends : attempt cfg bs = .rejected d rest) :
    readAttempts cfg (fuel + 1) bs =
      { failed := d :: (readAttempts cfg fuel rest).failed, result := (readAttempts cfg fuel rest).result } := by
  rw [readAttempts, ends]

end

/-- A failed attempt leaves fewer bytes, and the protocol goes on with them. -/
theorem readFrom_of_attempt_rejected {bs rest : List Byte} {d : DiagKind} {s : State}
    (ends : attempt s.cfg bs = .rejected d rest) :
    ∃ used, bs = used ++ rest ∧ rest.length < bs.length ∧
      readFrom bs .lead s = readFrom rest .lead (nextAttempt d used.length s) := by
  obtain ⟨used, rfl, nonempty, answer⟩ := readFrom_of_scan_rejected ((scan_lead bs).trans ends)
  have positive := List.length_pos_iff.2 nonempty
  exact ⟨used, rfl, by rw [List.length_append]; omega, answer⟩

/-- Where the loop of attempts returns a value, so does the protocol, having consumed the same bytes. -/
theorem readFrom_of_readAttempts_some {fuel : Nat} {bs rest : List Byte} {n : Int} {s : State}
    (enough : bs.length < fuel)
    (value : (readAttempts s.cfg fuel bs).result = some (n, rest)) :
    ∃ used, bs = used ++ rest ∧ readFrom bs .lead s =
      .next (advance (setAcc (word n) (afterAttempts (readAttempts s.cfg fuel bs).failed used.length s))) := by
  induction fuel generalizing bs s with
  | zero => exact absurd enough (Nat.not_lt_zero _)
  | succ fuel ih =>
    cases ends : attempt s.cfg bs with
    | exhausted =>
      rw [readAttempts_of_exhausted ends] at value
      cases value
    | accepted m rest' =>
      rw [readAttempts_of_accepted ends] at value ⊢
      obtain ⟨rfl, rfl⟩ := Prod.mk.inj (Option.some.inj value)
      obtain ⟨used, same, answer⟩ := readFrom_of_scan_accepted ((scan_lead bs).trans ends)
      exact ⟨used, same, by rw [answer, afterAttempts_nil]⟩
    | rejected d rest' =>
      rw [readAttempts_of_rejected ends] at value ⊢
      obtain ⟨used, same, shorter, answer⟩ := readFrom_of_attempt_rejected ends
      obtain ⟨used', same', answer'⟩ :=
        ih (s := nextAttempt d used.length s) (by omega) value
      refine ⟨used ++ used', by rw [same, same', List.append_assoc], ?_⟩
      rw [answer, answer', afterAttempts_cons, List.length_append]
      rfl

/-- Where the bytes run out in the loop of attempts, so they do in the protocol, having consumed them all. -/
theorem readFrom_of_readAttempts_none {fuel : Nat} {bs : List Byte} {s : State} (enough : bs.length < fuel)
    (noValue : (readAttempts s.cfg fuel bs).result = none) :
    ∃ r, readFrom bs .lead s = inputExhausted r (afterAttempts (readAttempts s.cfg fuel bs).failed bs.length s) := by
  induction fuel generalizing bs s with
  | zero => exact absurd enough (Nat.not_lt_zero _)
  | succ fuel ih =>
    cases ends : attempt s.cfg bs with
    | exhausted =>
      rw [readAttempts_of_exhausted ends, afterAttempts_nil]
      exact readFrom_of_scan_exhausted ((scan_lead bs).trans ends)
    | accepted m rest' =>
      rw [readAttempts_of_accepted ends] at noValue
      cases noValue
    | rejected d rest' =>
      rw [readAttempts_of_rejected ends] at noValue ⊢
      obtain ⟨used, same, shorter, answer⟩ := readFrom_of_attempt_rejected ends
      obtain ⟨r, answer'⟩ :=
        ih (s := nextAttempt d used.length s) (by omega) noValue
      refine ⟨r, ?_⟩
      rw [answer, answer', afterAttempts_cons, same, List.length_append]
      rfl

/-! ### INP -/

/-- A state after INP's failed attempts and `n` consumed bytes: one prompt an attempt, the last one included. -/
def afterReading (failed : List DiagKind) (n : Nat) (s : State) : State :=
  { s with
    inPos := s.inPos + n
    out := s.out ++ prompts s.cfg (failed.length + 1)
    diag := s.diag ++ diagTexts s.cfg failed }

theorem afterAttempts_startAttempt (failed : List DiagKind) (n : Nat) (s : State) :
    afterAttempts failed n (startAttempt s) = afterReading failed n s := by
  simp [afterAttempts, afterReading, startAttempt, outEmit, prompts, List.replicate_succ]

section
variable {s : State}

/-- Where `readNum` returns a value, INP answers it, and goes on. -/
theorem exec_inp_of_readNum_some {n : Int} {rest : List Byte}
    (value : (readNum s.cfg s.inputLeft).result = some (n, rest)) :
    exec .inp s = .next (advance (setAcc (word n)
      (afterReading (readNum s.cfg s.inputLeft).failed (s.inputLeft.length - rest.length) s))) := by
  obtain ⟨used, same, answer⟩ := readFrom_of_readAttempts_some (s := startAttempt s) (Nat.lt_succ_self _) value
  have consumed : s.inputLeft.length - rest.length = used.length := by
    rw [same, List.length_append, Nat.add_sub_cancel]
  rw [exec_inp, answer, afterAttempts_startAttempt, consumed]
  rfl

/-- Where the bytes run out in `readNum`, so they do in INP. -/
theorem exec_inp_of_readNum_none (noValue : (readNum s.cfg s.inputLeft).result = none) :
    ∃ r, exec .inp s =
      inputExhausted r (afterReading (readNum s.cfg s.inputLeft).failed s.inputLeft.length s) := by
  obtain ⟨r, answer⟩ := readFrom_of_readAttempts_none (s := startAttempt s) (Nat.lt_succ_self _) noValue
  refine ⟨r, ?_⟩
  rw [exec_inp, answer, afterAttempts_startAttempt]
  rfl

end

/-- Settles O29: the protocol's attempts are the loop's, and where the bytes run out the input has ended or INP waits. -/
theorem inpComputesReadNum : Obligations.InpComputesReadNum := by
  intro s
  refine ⟨fun n rest value => exec_inp_of_readNum_some value, fun noValue ended => ?_, fun noValue notEnded => ?_⟩
  · obtain ⟨r, answer⟩ := exec_inp_of_readNum_none noValue
    exact answer.trans (if_pos ended)
  · obtain ⟨r, answer⟩ := exec_inp_of_readNum_none noValue
    exact ⟨r, answer.trans (if_neg (by simp [afterReading, notEnded]))⟩

/-- The frame and the end of a protocol run that answered `t`. -/
theorem readFrom_frame_end {bs : List Byte} {r : Reader} {s t : State} (answer : readFrom bs r s = .next t) :
    ReadFrame bs.length s t ∧ ReadEnd bs.length s t := by
  obtain ⟨u, answer', frame, ends⟩ := readFrom_cases bs r s
  obtain rfl : u = t := Host.Outcome.next.inj (answer'.symm.trans answer)
  exact ⟨frame, ends⟩

/-- The input that is left is what was supplied and not consumed. -/
theorem inPos_add_inputLeft {s : State} (ok : s.InputOk) : s.inPos + s.inputLeft.length = s.input.bytes.length := by
  rw [State.inputLeft, List.length_drop]
  exact Nat.add_sub_cancel' ok

/-- Settles O30, by the protocol's ends: with the input ended there is no wait. -/
theorem inpEndsOnFiniteInput : Obligations.InpEndsOnFiniteInput := by
  intro s ended ok
  obtain ⟨t, answer, frame, ends⟩ := readFrom_cases s.inputLeft .lead (startAttempt s)
  have supplied := inPos_add_inputLeft ok
  refine ⟨t, (exec_inp s).trans answer, ?_⟩
  cases ends with
  | value ip run _ reader => exact ⟨reader, .inl ⟨ip, run, supplied ▸ frame.inPos_le⟩⟩
  | eof _ acc ip run fault reader inPos => exact ⟨reader, .inr ⟨ip, acc, run, inPos.trans supplied, fault⟩⟩
  | wait notEnded => exact absurd (ended.symm.trans notEnded) Bool.noConfusion

/-- Settles O46, by the protocol's frame and its ends. -/
theorem inputFrame : Obligations.InputFrame := by
  intro s t running idle answer
  obtain ⟨frame, ends⟩ := readFrom_frame_end ((exec_inp s).symm.trans answer)
  refine ⟨memoryKept_of_eq frame.mem frame.cfg, frame.lineMode, frame.input, frame.cfg, ?_⟩
  cases ends with
  | value ip run fault reader =>
    have stillRunning : t.run ≠ .faulted := by rw [run, startAttempt, outEmit_run, running]; decide
    exact ⟨fun _ => ⟨ip, run, fault⟩, fun open_ => absurd ⟨stillRunning, reader.trans idle⟩ open_, fun _ => fault,
      fun faulted => absurd faulted stillRunning⟩
  | eof _ acc ip run fault =>
    exact ⟨fun completed => absurd run completed.1, fun _ => ⟨acc, ip⟩, fun other => absurd run other, fun _ => fault⟩
  | wait _ acc ip run fault reader =>
    have stillRunning : t.run ≠ .faulted := by rw [run, startAttempt, outEmit_run, running]; decide
    obtain ⟨r, waits⟩ := reader
    exact ⟨fun completed => absurd (waits.symm.trans completed.2) (Option.some_ne_none r), fun _ => ⟨acc, ip⟩,
      fun _ => fault, fun faulted => absurd faulted stillRunning⟩

/-- Out of bytes, the accumulator is as it was. -/
theorem inputExhausted_keeps_acc {r : Reader} {s t : State} (answer : inputExhausted r s = .next t) :
    t.acc = s.acc := by
  unfold inputExhausted at answer
  split at answer <;> exact (Host.Outcome.next.inj answer) ▸ rfl

/-- Settles O48, by the cases of an instruction; INP writes the value `readNum` returns, where there is one. -/
theorem accumulatorHasFourSources : Obligations.AccumulatorHasFourSources := by
  intro i s t answer
  cases exec_cases answer with
  | completes done =>
    cases done with
    | halted _ _ h => exact .inl (h ▸ rfl)
    | loaded a v acc read loads h =>
      have written : t.acc = acc := h ▸ rfl
      exact .inr (.inl ⟨a, v, read, written ▸ loads⟩)
    | stored _ _ _ h => exact .inl (h ▸ rfl)
    | branched _ _ _ h => exact .inl (h ▸ rfl)
    | printed _ _ _ h => exact .inl (h ▸ rfl)
  | outside _ _ _ _ h => exact .inl (h ▸ rfl)
  | input isInp =>
    subst isInp
    cases value : (readNum s.cfg s.inputLeft).result with
    | some result =>
      obtain ⟨n, rest⟩ := result
      obtain rfl := Host.Outcome.next.inj ((exec_inp_of_readNum_some value).symm.trans answer)
      exact .inr (.inr ⟨rfl, n, rest, rfl, rfl⟩)
    | none =>
      obtain ⟨r, exhausted⟩ := exec_inp_of_readNum_none value
      exact .inl (inputExhausted_keeps_acc (s := afterReading _ _ s) (exhausted.symm.trans answer))

/-- Settles O47, by the cases of an instruction and INP's frame. -/
theorem nextIpTable : Obligations.NextIpTable := by
  intro i s t running idle answer completed
  cases exec_cases answer with
  | completes done =>
    cases done with
    | halted opd isHlt h => subst isHlt h; rfl
    | loaded a v acc _ loads h => obtain ⟨rfl, -⟩ | ⟨rfl, -⟩ | ⟨rfl, -⟩ := loads <;> exact h ▸ rfl
    | stored a _ isSta h => subst isSta h; rfl
    | branched a taken branches h =>
      subst h
      obtain ⟨rfl, rfl⟩ | ⟨rfl, rfl⟩ | ⟨rfl, rfl⟩ := branches
      · rfl
      · simp only [isZero_iff, ← eq_zero_iff_sval_eq_zero]
        rfl
      · simp only [isNonNegative_iff]
        rfl
    | printed bytes line prints h => obtain ⟨rfl, -⟩ | rfl := prints <;> exact h ▸ rfl
  | outside _ _ _ _ h => exact absurd (h ▸ rfl) completed.1
  | input isInp =>
    subst isInp
    obtain ⟨-, -, -, -, whenCompleted, -⟩ := inputFrame s t running idle answer
    exact (whenCompleted completed).1

end Sys2Proof.Machine
end

section
/-! The rules of the whole machine (40_cycle_and_halt.md, 60_exceptions.md section 1): a step reads, raises a fatal
condition or completes an instruction, and each of the three has one frame. -/

namespace Sys2Proof.Machine

/-! ### The step -/

/-- Settles O8, by the word at `ip` and by the wait. -/
theorem stepRunsTheDecodedInstruction : Obligations.StepRunsTheDecodedInstruction :=
  ⟨fun _ _ _ running idle fetched decoded => step_eq_exec running idle fetched decoded, fun _ _ => step_waiting⟩

/-- Settles O12, by the two stopped run states. -/
theorem stoppedStatesTakeNoStep : Obligations.StoppedStatesTakeNoStep := fun _ =>
  ⟨fun halted => by simp only [step, halted], step_eq_fault_of_faulted⟩

/-- Settles O11: the word decodes to an invalid selector. -/
theorem invalidSelectorFaults : Obligations.InvalidSelectorFaults := by
  intro s w running idle fetched io notInp notOut notOtc
  rw [← operandField_toNat] at notInp notOut notOtc ⊢
  rw [step_fetched running idle fetched, decode_eq_invalidSelector_iff.2 ⟨io, rfl, notInp, notOut, notOtc⟩]
  rfl

/-- Settles O13: an INP goes on, a fatal condition is taken, and every instruction answers a next state. -/
theorem runningStepAnswersNext : Obligations.RunningStepAnswersNext := by
  intro s running
  cases waits : s.reader with
  | some r =>
    obtain ⟨t, answer, -⟩ := readFrom_cases s.inputLeft r { s with reader := none }
    exact ⟨t, (step_waiting running waits).trans answer⟩
  | none =>
    cases fetched : fetch s with
    | none => exact ⟨_, step_unfetched running waits fetched⟩
    | some w =>
      rw [step_fetched running waits fetched]
      cases decode w with
      | instr i => exact exec_answers_next i s
      | invalidOpcode opc => exact ⟨_, rfl⟩
      | invalidSelector sel => exact ⟨_, rfl⟩

/-- A step that reads: with which reader, and from which state (44_io.md R171, R179; log 9). -/
inductive Reads (s : State) (r : Reader) (s₀ : State) : Prop where
  | resumed (waits : s.reader = some r) (start : s₀ = { s with reader := none })
  | started (idle : s.reader = none) (fetched : fetch s = some inpWord) (lead : r = .lead) (start : s₀ = startAttempt s)

/-- The fatal conditions but INPUT_EOF, with their cause, info and origin (60_exceptions.md R203). -/
inductive FatalAt (s : State) : Cause → Option Nat → Origin → Prop where
  | fetch (unfetched : fetch s = none) : FatalAt s .rangeRead (some s.ip.toNat) .fetch
  | opcode {w : Word} {opc : Opcode} (fetched : Machine.fetch s = some w) (decoded : decode w = .invalidOpcode opc) :
      FatalAt s .invalidOpcode (some opc.toNat) (.execute w)
  | selector {w : Word} {sel : Operand} (fetched : Machine.fetch s = some w) (decoded : decode w = .invalidSelector sel) :
      FatalAt s .invalidIoSelector (some sel.toNat) (.execute w)
  | operand {w : Word} {i : Instr} {a : Operand} {cause : Cause} (fetched : Machine.fetch s = some w)
      (decoded : decode w = .instr i) (accesses : AccessesAt i a cause) (outside : s.cfg.memLen.val ≤ a.toNat) :
      FatalAt s cause (some a.toNat) (.execute w)

/-- What a step can do, in three kinds. -/
inductive StepKind (s t : State) : Prop where
  | reads (r : Reader) (s₀ : State) (reads : Reads s r s₀) (answer : readFrom s.inputLeft r s₀ = .next t)
  | fatal (idle : s.reader = none) (cause : Cause) (info : Option Nat) (origin : Origin)
      (fatal : FatalAt s cause info origin) (h : t = raiseFatal cause info origin s)
  | completes (idle : s.reader = none) (w : Word) (i : Instr) (fetched : fetch s = some w) (decoded : decode w = .instr i)
      (done : Completes i s t)

theorem step_kind {s t : State} (stepped : step s = .next t) : s.run = .running ∧ StepKind s t := by
  obtain ⟨running, stepCase⟩ := step_cases stepped
  refine ⟨running, ?_⟩
  cases stepCase with
  | waiting r waits answer => exact .reads r _ (.resumed waits rfl) answer
  | unfetched idle unfetched h => exact .fatal idle _ _ _ (.fetch unfetched) h
  | invalidOpcode idle w opc fetched decoded h => exact .fatal idle _ _ _ (.opcode fetched decoded) h
  | invalidSelector idle w sel fetched decoded h => exact .fatal idle _ _ _ (.selector fetched decoded) h
  | instr idle w i fetched decoded answer =>
    have isWord : encode i = w := encode_of_decode decoded
    cases exec_cases answer with
    | completes done => exact .completes idle w i fetched decoded done
    | outside a cause accesses outside h =>
      exact .fatal idle _ _ _ (.operand fetched decoded accesses outside) (isWord ▸ h)
    | input isInp =>
      subst isInp
      exact .reads .lead _ (.started idle (fetched.trans (congrArg some isWord.symm)) rfl rfl)
        ((exec_inp s).symm.trans answer)

theorem decode_inpWord : decode inpWord = .instr .inp := decode_encode .inp

/-- A step that reads runs the protocol over the bytes left. -/
theorem Reads.step {s s₀ : State} {r : Reader} (reads : Reads s r s₀) (running : s.run = .running) :
    step s = readFrom s.inputLeft r s₀ := by
  cases reads with
  | resumed waits start => rw [step_waiting running waits, start]; rfl
  | started idle fetched lead start => rw [step_eq_exec running idle fetched decode_inpWord, exec_inp, lead, start]

/-- A fatal condition is taken. -/
theorem FatalAt.step {s : State} {cause : Cause} {info : Option Nat} {origin : Origin}
    (fatal : FatalAt s cause info origin) (running : s.run = .running) (idle : s.reader = none) :
    step s = .next (raiseFatal cause info origin s) := by
  cases fatal with
  | fetch unfetched => exact step_unfetched running idle unfetched
  | opcode fetched decoded => rw [step_fetched running idle fetched, decoded]; rfl
  | selector fetched decoded => rw [step_fetched running idle fetched, decoded]; rfl
  | operand fetched decoded accesses outside =>
    rw [step_eq_exec running idle fetched decoded, ← encode_of_decode decoded]
    obtain ⟨reads, rfl⟩ | ⟨rfl, rfl⟩ := accesses
    · exact exec_readsAt_outOfRange reads outside
    · exact writeOperand_outOfRange outside

/-! ### The frames of the three kinds -/

/-- What the start of a reading leaves as it is. -/
structure StartFrame (s s₀ : State) : Prop where
  acc : s₀.acc = s.acc
  ip : s₀.ip = s.ip
  run : s₀.run = s.run
  fault : s₀.fault = s.fault
  mem : s₀.mem = s.mem
  lineMode : s₀.lineMode = s.lineMode
  inPos : s₀.inPos = s.inPos
  out : s.out <+: s₀.out
  diag : s₀.diag = s.diag
  reader : s₀.reader = none
  input : s₀.input = s.input
  cfg : s₀.cfg = s.cfg

theorem Reads.frame {s s₀ : State} {r : Reader} (reads : Reads s r s₀) : StartFrame s s₀ := by
  cases reads with
  | resumed _ start => subst start; exact ⟨rfl, rfl, rfl, rfl, rfl, rfl, rfl, ⟨[], List.append_nil _⟩, rfl, rfl, rfl, rfl⟩
  | started idle _ _ start =>
    subst start
    exact ⟨rfl, rfl, rfl, rfl, rfl, rfl, rfl, ⟨_, rfl⟩, rfl, idle, rfl, rfl⟩

/-- A step that reads is going on with an INP, or its instruction is INP. -/
theorem Reads.nextInstr {s s₀ : State} {r : Reader} (reads : Reads s r s₀) (idle : s.reader = none) :
    s.nextInstr = some .inp := by
  cases reads with
  | resumed waits => exact absurd (waits.symm.trans idle) (Option.some_ne_none r)
  | started _ fetched => exact nextInstr_of_decode fetched decode_inpWord

/-- A fatal condition is raised where there is no instruction to execute, or at one that accesses memory at its operand
(60_exceptions.md R203). -/
theorem FatalAt.nextInstr {s : State} {cause : Cause} {info : Option Nat} {origin : Origin}
    (fatal : FatalAt s cause info origin) :
    s.nextInstr = none ∨ ∃ i a, s.nextInstr = some i ∧ AccessesAt i a cause := by
  cases fatal with
  | fetch unfetched => exact .inl (by simp only [State.nextInstr, unfetched])
  | opcode fetched decoded => exact .inl (by simp only [State.nextInstr, fetched, decoded])
  | selector fetched decoded => exact .inl (by simp only [State.nextInstr, fetched, decoded])
  | operand fetched decoded accesses => exact .inr ⟨_, _, nextInstr_of_decode fetched decoded, accesses⟩

theorem FatalAt.cause_ne_inputEof {s : State} {cause : Cause} {info : Option Nat} {origin : Origin}
    (fatal : FatalAt s cause info origin) : cause ≠ .inputEof := by
  cases fatal with
  | operand _ _ accesses => obtain ⟨-, rfl⟩ | ⟨-, rfl⟩ := accesses <;> decide
  | _ => decide

theorem AccessesAt.ne_hlt {a : Operand} {cause : Cause} (opd : Operand) : ¬ AccessesAt (.hlt opd) a cause := by
  simp [AccessesAt, Instr.readsAt]

/-- What every instruction that completes leaves as it is. -/
structure CompletesFrame (s t : State) : Prop where
  fault : t.fault = s.fault
  inPos : t.inPos = s.inPos
  diag : t.diag = s.diag
  reader : t.reader = s.reader
  input : t.input = s.input
  cfg : t.cfg = s.cfg

section
variable {i : Instr} {s t : State} (done : Completes i s t)
include done

theorem Completes.frame : CompletesFrame s t := by
  cases done with
  | halted _ _ h => subst h; exact ⟨rfl, rfl, rfl, rfl, rfl, rfl⟩
  | loaded _ _ _ _ _ h => subst h; exact ⟨rfl, rfl, rfl, rfl, rfl, rfl⟩
  | stored _ _ _ h => subst h; exact ⟨rfl, rfl, rfl, rfl, rfl, rfl⟩
  | branched _ _ _ h => subst h; exact ⟨rfl, rfl, rfl, rfl, rfl, rfl⟩
  | printed _ _ _ h => subst h; exact ⟨rfl, rfl, rfl, rfl, rfl, rfl⟩

/-- HLT halts, and every other instruction that completes keeps the run state. -/
theorem Completes.run : ((∃ opd, i = .hlt opd) ∧ t.run = .halted) ∨ ((∀ opd, i ≠ .hlt opd) ∧ t.run = s.run) := by
  cases done with
  | halted opd isHlt h => exact .inl ⟨⟨opd, isHlt⟩, h ▸ rfl⟩
  | loaded _ _ _ _ loads h => obtain ⟨rfl, -⟩ | ⟨rfl, -⟩ | ⟨rfl, -⟩ := loads <;> exact .inr ⟨nofun, h ▸ rfl⟩
  | stored _ _ isSta h => subst isSta; exact .inr ⟨nofun, h ▸ rfl⟩
  | branched _ _ branches h => obtain ⟨rfl, -⟩ | ⟨rfl, -⟩ | ⟨rfl, -⟩ := branches <;> exact .inr ⟨nofun, h ▸ rfl⟩
  | printed _ _ prints h => obtain ⟨rfl, -⟩ | rfl := prints <;> exact .inr ⟨nofun, h ▸ rfl⟩

theorem Completes.run_ne_faulted (running : s.run = .running) : t.run ≠ .faulted := by
  obtain ⟨-, run⟩ | ⟨-, run⟩ := done.run
  · rw [run]; decide
  · rw [run, running]; decide

/-- Only STA writes memory (42_load_store.md R132). -/
theorem Completes.mem : t.mem = s.mem ∨
    ∃ a : Operand, i = .sta a ∧ a.toNat < s.cfg.memLen.val ∧ t.mem = s.mem.write a.toNat s.acc := by
  cases done with
  | halted _ _ h => exact .inl (h ▸ rfl)
  | loaded _ _ _ _ _ h => exact .inl (h ▸ rfl)
  | stored a inRange isSta h => exact .inr ⟨a, isSta, inRange, h ▸ rfl⟩
  | branched _ _ _ h => exact .inl (h ▸ rfl)
  | printed _ _ _ h => exact .inl (h ▸ rfl)

/-- Only OUT and OTC emit (44_io.md R160). -/
theorem Completes.out : t.out = s.out ∨ ((i = .out ∨ i = .otc) ∧ s.out <+: t.out) := by
  cases done with
  | halted _ _ h => exact .inl (h ▸ rfl)
  | loaded _ _ _ _ _ h => exact .inl (h ▸ rfl)
  | stored _ _ _ h => exact .inl (h ▸ rfl)
  | branched _ _ _ h => exact .inl (h ▸ rfl)
  | printed bytes _ prints h => exact .inr ⟨prints.imp_left And.left, h ▸ ⟨_, rfl⟩⟩

/-- The next `ip` of an instruction that completes (43_branch.md R143). -/
theorem Completes.ip : t.ip = s.ip ∨ t.ip = s.ip + 1 ∨ ∃ a, t.ip = branchTarget a := by
  cases done with
  | halted _ _ h => exact .inl (h ▸ rfl)
  | loaded _ _ _ _ _ h => exact .inr (.inl (h ▸ rfl))
  | stored _ _ _ h => exact .inr (.inl (h ▸ rfl))
  | branched a taken _ h =>
    cases taken with
    | true => exact .inr (.inr ⟨a, h ▸ rfl⟩)
    | false => exact .inr (.inl (h ▸ rfl))
  | printed _ _ _ h => exact .inr (.inl (h ▸ rfl))

end

/-! ### What every step keeps -/

/-- Settles O52, by the frame of each kind of step. -/
theorem stepsKeepParametersAndInput : Obligations.StepsKeepParametersAndInput := by
  intro s t stepped
  obtain ⟨-, kind⟩ := step_kind stepped
  cases kind with
  | reads r s₀ reads answer =>
    have start := reads.frame
    obtain ⟨frame, -⟩ := readFrom_frame_end answer
    exact ⟨frame.cfg.trans start.cfg, frame.input.trans start.input⟩
  | fatal _ _ _ _ _ h => subst h; exact ⟨rfl, rfl⟩
  | completes _ _ _ _ _ done => exact ⟨done.frame.cfg, done.frame.input⟩

/-- Settles O50: only the kind of step that completes a STA writes memory. -/
theorem onlyStaWritesMemory : Obligations.OnlyStaWritesMemory := by
  intro s t canonical stepped
  obtain ⟨-, kind⟩ := step_kind stepped
  cases kind with
  | reads r s₀ reads answer => exact .inl ((readFrom_frame_end answer).1.mem.trans reads.frame.mem)
  | fatal _ _ _ _ _ h => subst h; exact .inl rfl
  | completes idle w i fetched decoded done =>
    obtain kept | ⟨a, rfl, inRange, written⟩ := done.mem
    · exact .inl kept
    · have asWritten : ∀ x, t.wordAt x = ({ s with mem := s.mem.write a.toNat s.acc } : State).wordAt x :=
        memoryKept_of_eq (s := { s with mem := s.mem.write a.toNat s.acc }) written done.frame.cfg
      exact .inr ⟨idle, a, nextInstr_of_decode fetched decoded,
        (asWritten _).trans (wordAt_write_same canonical _ _ inRange),
        fun x other => (asWritten x).trans (wordAt_write_other canonical _ _ other)⟩

/-- A step that reads consumes no more than what is left. -/
theorem inputOk_of_frame {s s₀ t : State} (ok : s.InputOk) (start : StartFrame s s₀)
    (frame : ReadFrame s.inputLeft.length s₀ t) : t.InputOk := by
  have consumed := frame.inPos_le
  rw [start.inPos, inPos_add_inputLeft ok, ← start.input, ← frame.input] at consumed
  exact consumed

/-- Settles O51, by the frame of each kind of step. -/
theorem portsOnlyGrow : Obligations.PortsOnlyGrow := by
  intro s t stepped
  obtain ⟨running, kind⟩ := step_kind stepped
  cases kind with
  | reads r s₀ reads answer =>
    have start := reads.frame
    obtain ⟨frame, -⟩ := readFrom_frame_end answer
    exact ⟨start.out.trans frame.out, start.diag ▸ frame.diag, start.inPos ▸ frame.inPos_ge,
      fun ok => inputOk_of_frame ok start frame, fun idle notInp => absurd (reads.nextInstr idle) notInp⟩
  | fatal _ _ _ _ _ h =>
    subst h
    exact ⟨⟨[], List.append_nil _⟩, ⟨_, rfl⟩, Nat.le_refl _, id, fun _ _ =>
      ⟨rfl, fun _ _ => rfl, fun notFaulted => absurd rfl notFaulted⟩⟩
  | completes _ w i fetched decoded done =>
    obtain ⟨-, inPos, diag, -, input, -⟩ := done.frame
    have isNext : s.nextInstr = some i := nextInstr_of_decode fetched decoded
    have grows : s.out <+: t.out := done.out.elim (fun kept => kept ▸ ⟨[], List.append_nil _⟩) And.right
    refine ⟨grows, diag ▸ ⟨[], List.append_nil _⟩, Nat.le_of_eq inPos.symm, fun ok => ?_, fun _ _ =>
      ⟨inPos, fun notOut notOtc => ?_, fun _ => diag⟩⟩
    · rw [State.InputOk, inPos, input]
      exact ok
    · obtain kept | ⟨rfl | rfl, -⟩ := done.out
      · exact kept
      · exact absurd isNext notOut
      · exact absurd isNext notOtc

/-! ### The ends of a run -/

/-- Settles O55: no read and no fatal condition ends in HALTED, and of the instructions only HLT does. -/
theorem haltedOnlyByHlt : Obligations.HaltedOnlyByHlt := by
  intro s t stepped
  obtain ⟨running, kind⟩ := step_kind stepped
  have halted_iff : t.halted = true ↔ t.run = .halted := decide_eq_true_iff
  rw [halted_iff]
  cases kind with
  | reads r s₀ reads answer =>
    have start := reads.frame
    have notHalted : t.run ≠ .halted := by
      cases (readFrom_frame_end answer).2 with
      | value _ run => rw [run, start.run, running]; decide
      | eof _ _ _ run => rw [run]; decide
      | wait _ _ _ run => rw [run, start.run, running]; decide
    refine ⟨fun halted => absurd halted notHalted, fun ⟨idle, opd, isHlt⟩ => ?_⟩
    cases (reads.nextInstr idle).symm.trans isHlt
  | fatal _ cause info origin fatal h =>
    subst h
    refine ⟨nofun, fun ⟨_, opd, isHlt⟩ => ?_⟩
    obtain noInstr | ⟨i, a, isNext, accesses⟩ := fatal.nextInstr
    · cases noInstr.symm.trans isHlt
    · obtain rfl := Option.some.inj (isNext.symm.trans isHlt)
      exact absurd accesses (AccessesAt.ne_hlt opd)
  | completes idle w i fetched decoded done =>
    have isNext : s.nextInstr = some i := nextInstr_of_decode fetched decoded
    obtain ⟨⟨opd, rfl⟩, run⟩ | ⟨notHlt, run⟩ := done.run
    · exact ⟨fun _ => ⟨idle, opd, isNext⟩, fun _ => run⟩
    · refine ⟨fun halted => ?_, fun ⟨_, opd, isHlt⟩ => ?_⟩
      · cases running.symm.trans (run.symm.trans halted)
      · exact absurd (Option.some.inj (isNext.symm.trans isHlt)) (notHlt opd)

/-- A read that ends in FAULTED emitted the fatal text of INPUT_EOF last. -/
theorem readFrom_faulted_diag {bs : List Byte} {r : Reader} {s t : State} (notFaulted : s.run ≠ .faulted)
    (answer : readFrom bs r s = .next t) (faulted : t.run = .faulted) :
    ∃ texts, t.diag = s.diag ++ texts ++ Config.diagFatal .inputEof none := by
  induction bs generalizing r s with
  | nil =>
    rw [readFrom_nil, inputExhausted] at answer
    split at answer
    · obtain rfl := Host.Outcome.next.inj answer
      exact ⟨[], by simp⟩
    · obtain rfl := Host.Outcome.next.inj answer
      exact absurd faulted notFaulted
  | cons c cs ih =>
    cases move : r.onByte s.cfg c with
    | goto r' =>
      rw [readFrom_goto move] at answer
      exact ih (s := takeByte s) notFaulted answer
    | accept n =>
      rw [readFrom_accept move] at answer
      obtain rfl := Host.Outcome.next.inj answer
      exact absurd faulted notFaulted
    | reject d =>
      rw [readFrom_reject move] at answer
      obtain ⟨texts, diag⟩ := ih (s := nextAttempt d 1 s) notFaulted answer
      refine ⟨diagText s.cfg d ++ texts, diag.trans ?_⟩
      simp [nextAttempt, startAttempt, takeBytes]

/-- Settles O53: a step that enters FAULTED raised a fatal condition in place, or is a read whose input ended. -/
theorem faultsArePrecise : Obligations.FaultsArePrecise := by
  intro s t ok stepped faulted
  obtain ⟨running, kind⟩ := step_kind stepped
  have stops : ∀ u, step t ≠ .next u := fun u later => by
    rw [step_eq_fault_of_faulted faulted] at later
    cases later
  cases kind with
  | reads r s₀ reads answer =>
    have start := reads.frame
    obtain ⟨frame, ends⟩ := readFrom_frame_end answer
    have notFaulted : s₀.run ≠ .faulted := by rw [start.run, running]; decide
    cases ends with
    | value _ run => exact absurd (run.symm.trans faulted) notFaulted
    | wait _ _ _ run => exact absurd (run.symm.trans faulted) notFaulted
    | eof ended acc ip _ fault reader inPos =>
      obtain ⟨texts, diag⟩ := readFrom_faulted_diag notFaulted answer faulted
      refine ⟨acc.trans start.acc, ip.trans start.ip, frame.mem.trans start.mem, frame.lineMode.trans start.lineMode,
        reader.trans start.reader, stops, _, fault, start.ip, fun other => absurd rfl other, fun _ =>
        ⟨start.input ▸ ended, ?_, start.out.trans frame.out, texts, start.diag ▸ diag⟩⟩
      rw [inPos, start.inPos, inPos_add_inputLeft ok]
  | fatal idle cause info origin fatal h =>
    subst h
    exact ⟨rfl, rfl, rfl, rfl, idle, stops, _, rfl, rfl, fun _ => ⟨rfl, rfl, rfl⟩,
      fun isEof => absurd isEof fatal.cause_ne_inputEof⟩
  | completes _ _ _ _ _ done => exact absurd faulted (done.run_ne_faulted running)

/-- INP ends in FAULTED exactly where the input has ended and holds no acceptable line (44_io.md R171). -/
theorem exec_inp_faulted_iff {s t : State} (running : s.run = .running) (answer : exec .inp s = .next t) :
    t.run = .faulted ↔ s.input.ended = true ∧ (readNum s.cfg s.inputLeft).result = none := by
  have notFaulted : s.run ≠ .faulted := by rw [running]; decide
  cases value : (readNum s.cfg s.inputLeft).result with
  | some result =>
    obtain ⟨n, rest⟩ := result
    obtain rfl := Host.Outcome.next.inj ((exec_inp_of_readNum_some value).symm.trans answer)
    exact ⟨fun faulted => absurd faulted notFaulted, nofun⟩
  | none =>
    obtain ⟨r, exhausted⟩ := exec_inp_of_readNum_none value
    rw [exhausted, inputExhausted] at answer
    split at answer
    · next ended =>
      obtain rfl := Host.Outcome.next.inj answer
      exact ⟨fun _ => ⟨ended, rfl⟩, fun _ => rfl⟩
    · next notEnded =>
      obtain rfl := Host.Outcome.next.inj answer
      exact ⟨fun faulted => absurd faulted notFaulted, fun both => absurd both.1 notEnded⟩

/-- The conditions of 60_exceptions.md R203 other than INPUT_EOF, as the word at `ip` shows them. -/
theorem exists_fatalAt_iff (s : State) :
    (∃ cause info origin, FatalAt s cause info origin) ↔
      s.cfg.memLen.val ≤ s.ip.toNat ∨
      ∃ w, s.wordAt s.ip.toNat = some w ∧
        ((∃ opc, decode w = .invalidOpcode opc) ∨ (∃ sel, decode w = .invalidSelector sel) ∨
         (∃ i a, decode w = .instr i ∧ (Instr.readsAt i a ∨ i = .sta a) ∧ s.cfg.memLen.val ≤ a.toNat)) := by
  constructor
  · rintro ⟨cause, info, origin, fatal⟩
    cases fatal with
    | fetch unfetched =>
      exact .inl (Nat.not_lt.1 fun inRange => Option.some_ne_none _ ((wordAt_of_lt inRange).symm.trans unfetched))
    | opcode fetched decoded => exact .inr ⟨_, fetched, .inl ⟨_, decoded⟩⟩
    | selector fetched decoded => exact .inr ⟨_, fetched, .inr (.inl ⟨_, decoded⟩)⟩
    | operand fetched decoded accesses outside =>
      exact .inr ⟨_, fetched, .inr (.inr ⟨_, _, decoded, accesses.imp And.left And.left, outside⟩)⟩
  · rintro (outside | ⟨w, fetched, ⟨opc, decoded⟩ | ⟨sel, decoded⟩ | ⟨i, a, decoded, reads | isSta, outside⟩⟩)
    · exact ⟨_, _, _, .fetch ((fetch_eq_wordAt s).trans (wordAt_of_ge outside))⟩
    · exact ⟨_, _, _, .opcode fetched decoded⟩
    · exact ⟨_, _, _, .selector fetched decoded⟩
    · exact ⟨_, _, _, .operand fetched decoded (.inl ⟨reads, rfl⟩) outside⟩
    · exact ⟨_, _, _, .operand fetched decoded (.inr ⟨isSta, rfl⟩) outside⟩

/-- With no INP in progress, a step enters FAULTED for a fatal condition or for an INP that ran out of input. -/
theorem step_faulted_iff {s t : State} (idle : s.reader = none) (stepped : step s = .next t) :
    t.run = .faulted ↔ (∃ cause info origin, FatalAt s cause info origin) ∨
      (fetch s = some inpWord ∧ s.input.ended = true ∧ (readNum s.cfg s.inputLeft).result = none) := by
  obtain ⟨running, kind⟩ := step_kind stepped
  constructor
  · intro faulted
    cases kind with
    | reads r s₀ reads answer =>
      cases reads with
      | resumed waits => exact absurd (waits.symm.trans idle) (Option.some_ne_none r)
      | started _ fetched lead start =>
        subst lead start
        exact .inr ⟨fetched, (exec_inp_faulted_iff running ((exec_inp s).trans answer)).1 faulted⟩
    | fatal _ cause info origin fatal => exact .inl ⟨cause, info, origin, fatal⟩
    | completes _ _ _ _ _ done => exact absurd faulted (done.run_ne_faulted running)
  · rintro (⟨cause, info, origin, fatal⟩ | ⟨fetched, exhausted⟩)
    · obtain rfl := Host.Outcome.next.inj ((fatal.step running idle).symm.trans stepped)
      rfl
    · rw [step_eq_exec running idle fetched decode_inpWord] at stepped
      exact (exec_inp_faulted_iff running stepped).2 exhausted

/-- Settles O54: the fatal conditions as the word at `ip` shows them, and INP's word for INPUT_EOF. -/
theorem fatalConditionsExactly : Obligations.FatalConditionsExactly := by
  intro s t idle stepped
  have isInp : ∀ w, decode w = .instr .inp ↔ inpWord = w := fun w => decode_eq_instr_iff
  rw [step_faulted_iff idle stepped, exists_fatalAt_iff, fetch_eq_wordAt]
  simp only [isInp]
  constructor
  · rintro ((outside | ⟨w, fetched, fatal⟩) | ⟨fetched, ended, noValue⟩)
    · exact .inl outside
    · exact .inr ⟨w, fetched, fatal.imp_right (Or.imp_right .inl)⟩
    · exact .inr ⟨inpWord, fetched, .inr (.inr (.inr ⟨rfl, ended, noValue⟩))⟩
  · rintro (outside | ⟨w, fetched, opcode | selector | operand | ⟨rfl, exhausted⟩⟩)
    · exact .inl (.inl outside)
    · exact .inl (.inr ⟨w, fetched, .inl opcode⟩)
    · exact .inl (.inr ⟨w, fetched, .inr (.inl selector)⟩)
    · exact .inl (.inr ⟨w, fetched, .inr (.inr operand)⟩)
    · exact .inr ⟨fetched, exhausted⟩

end Sys2Proof.Machine
end

section
/-! The input port and the diagnostic port: an INP that waits is resumed as if its bytes had stood there before (log
9, 44_io.md R171), and no step looks at the diagnostic texts or at what was emitted there (10_state.md section 6). -/

namespace Sys2Proof.Machine

/-! ### The wait -/

/-- A state with another input port. -/
def withInput (p : InputPort) (s : State) : State := { s with input := p }

/-- A state with the wait ended: no INP in progress. -/
def endWait (s : State) : State := { s with reader := none }

/-- Settles O32: out of bytes, a waiting INP waits again at the same place. -/
theorem waitingInpStaysWaiting : Obligations.WaitingInpStaysWaiting := by
  intro s r running waits none notEnded
  have again : step s = .next { s with reader := some r } := by
    rw [step_waiting running waits, resumeReading, none, readFrom_nil, inputExhausted, if_neg (by simp [notEnded])]
  rw [again, ← waits]

/-- Going on from a wait is reading on: the bytes before it and after it are read as one input. -/
theorem readFrom_append_of_wait {bs : List Byte} {r r' : Reader} {s t : State} (idle : s.reader = none)
    (answer : readFrom bs r s = .next t) (waits : t.reader = some r') (cs : List Byte) (p : InputPort) :
    readFrom (bs ++ cs) r (withInput p s) = readFrom cs r' (withInput p (endWait t)) := by
  induction bs generalizing r s with
  | nil =>
    rw [readFrom_nil, inputExhausted] at answer
    split at answer
    · obtain rfl := Host.Outcome.next.inj answer
      cases idle.symm.trans waits
    · obtain rfl := Host.Outcome.next.inj answer
      obtain rfl := Option.some.inj waits
      have same : endWait { s with reader := some r } = s := by rw [endWait, ← idle]
      rw [same, List.nil_append]
  | cons b bs ih =>
    cases move : r.onByte s.cfg b with
    | goto r₁ =>
      rw [readFrom_goto move] at answer
      rw [List.cons_append, readFrom_goto (s := withInput p s) move]
      exact ih (s := takeByte s) idle answer
    | accept n =>
      rw [readFrom_accept move] at answer
      obtain rfl := Host.Outcome.next.inj answer
      cases idle.symm.trans waits
    | reject d =>
      rw [readFrom_reject move] at answer
      rw [List.cons_append, readFrom_reject (s := withInput p s) move]
      exact ih (s := nextAttempt d 1 s) idle answer

/-- What is read does not depend on the input port, only the bytes do. -/
theorem Reads.withInput {s s₀ : State} {r : Reader} (reads : Reads s r s₀) (p : InputPort) :
    Reads (withInput p s) r (withInput p s₀) := by
  cases reads with
  | resumed waits start => exact .resumed waits (congrArg (Machine.withInput p) start)
  | started idle fetched lead start => exact .started idle fetched lead (congrArg (Machine.withInput p) start)

/-- A step that ends in a wait is a read that waits. -/
theorem reads_of_waits {s t : State} {r' : Reader} (stepped : step s = .next t) (waits : t.reader = some r') :
    ∃ r s₀, Reads s r s₀ ∧ readFrom s.inputLeft r s₀ = .next t := by
  obtain ⟨-, kind⟩ := step_kind stepped
  cases kind with
  | reads r s₀ reads answer => exact ⟨r, s₀, reads, answer⟩
  | fatal idle _ _ _ _ h =>
    subst h
    cases idle.symm.trans waits
  | completes idle _ _ _ _ done => cases (done.frame.reader.trans idle).symm.trans waits

/-- Where an INP waits, the step from the wait with bytes supplied is the step it would have been with those bytes
supplied before. -/
theorem step_withInput_of_waits {s t : State} {cs : List Byte} {p : InputPort} (ok : s.InputOk)
    (supplied : p.bytes = s.input.bytes ++ cs) (stepped : step s = .next t) (waits : t.reader ≠ none) :
    step (withInput p t) = step (withInput p s) := by
  obtain ⟨r', waits⟩ := Option.ne_none_iff_exists'.1 waits
  obtain ⟨running, -⟩ := step_cases stepped
  obtain ⟨r, s₀, reads, answer⟩ := reads_of_waits stepped waits
  have start := reads.frame
  have left : (withInput p s).inputLeft = s.inputLeft ++ cs := by
    rw [State.inputLeft, withInput, supplied]
    exact List.drop_append_of_le_length ok
  cases (readFrom_frame_end answer).2 with
  | value _ _ _ reader => cases (reader.trans start.reader).symm.trans waits
  | eof _ _ _ _ _ reader => cases (reader.trans start.reader).symm.trans waits
  | wait _ _ _ run _ _ inPos =>
    have consumed : t.inPos = s.input.bytes.length := by rw [inPos, start.inPos, inPos_add_inputLeft ok]
    have left' : (withInput p t).inputLeft = cs := by
      rw [State.inputLeft, withInput, supplied, consumed, List.drop_left]
    have running' : (withInput p t).run = .running := run.trans (start.run.trans running)
    have resumes : Reads (withInput p t) r' (withInput p (endWait t)) := .resumed waits rfl
    rw [resumes.step running', (reads.withInput p).step running, left, left',
      readFrom_append_of_wait start.reader answer waits]

/-- Where the input has not ended, supplying bytes appends them to the port. -/
theorem hostSupply_eq_withInput {s : State} (notEnded : s.input.ended = false) (bs : List Byte) :
    s.hostSupply bs = withInput { s.input with bytes := s.input.bytes ++ bs } s :=
  if_neg (by simp [notEnded])

theorem hostEndInput_eq_withInput (s : State) : s.hostEndInput = withInput { s.input with ended := true } s := rfl

/-- Settles O31, for the two things the host can do to the input port. -/
theorem waitingInpIsResumedExactly : Obligations.WaitingInpIsResumedExactly := by
  intro s t bs running ok notEnded stepped waits
  obtain ⟨-, input⟩ := stepsKeepParametersAndInput s t stepped
  constructor
  · rw [hostSupply_eq_withInput notEnded, hostSupply_eq_withInput (input ▸ notEnded), input]
    exact step_withInput_of_waits ok rfl stepped waits
  · rw [hostEndInput_eq_withInput, hostEndInput_eq_withInput, input]
    exact step_withInput_of_waits (cs := []) ok (List.append_nil _).symm stepped waits

/-! ### The diagnostic port -/

/-- A state with other texts for the recoverable diagnostics, and another diagnostic port. -/
def withDiag (ni mf d : List Byte) (s : State) : State :=
  { s with diag := d, cfg := { s.cfg with diagNotInteger := ni, diagMalformed := mf } }

/-- A meaning that answers the same next state but for the diagnostics, whatever texts and port it is given. -/
def DiagBlind (ni mf : List Byte) (f : State → Result) : Prop :=
  ∀ s t d, f s = .next t → ∃ d', f (withDiag ni mf d s) = .next (withDiag ni mf d' t)

section
variable {ni mf : List Byte}

/-- A read at the operand for `acc` looks at no diagnostic, where the value does not. -/
theorem readOperand_diagBlind {i : Instr} {a : Operand} {value : Word → State → Word}
    (blind : ∀ v s d, value v (withDiag ni mf d s) = value v s) :
    DiagBlind ni mf (readOperand i a (fun v t => setAcc (value v t) t)) := by
  intro s t d answer
  obtain ⟨inRange, rfl⟩ | ⟨outside, rfl⟩ := readOperand_cases answer
  · refine ⟨d, (readOperand_inRange (s := withDiag ni mf d s) inRange).trans ?_⟩
    rw [blind]
    rfl
  · exact ⟨_, readOperand_outOfRange (s := withDiag ni mf d s) outside⟩

theorem writeOperand_diagBlind (i : Instr) (a : Operand) :
    DiagBlind ni mf (fun s => writeOperand i a s.acc s) := by
  intro s t d answer
  obtain ⟨inRange, rfl⟩ | ⟨outside, rfl⟩ := writeOperand_cases answer
  · exact ⟨d, writeOperand_inRange (s := withDiag ni mf d s) inRange⟩
  · exact ⟨_, writeOperand_outOfRange (s := withDiag ni mf d s) outside⟩

theorem branchIf_diagBlind (taken : Word → Bool) (a : Operand) :
    DiagBlind ni mf (fun s => branchIf (taken s.acc) a s) := by
  intro s t d answer
  obtain rfl := Host.Outcome.next.inj ((branchIf_eq _ a s).symm.trans answer)
  exact ⟨d, branchIf_eq _ a (withDiag ni mf d s)⟩

/-- The table of R179 looks at no diagnostic text. -/
theorem onByte_withDiag (r : Reader) (c : Byte) (s : State) (d : List Byte) :
    r.onByte (withDiag ni mf d s).cfg c = r.onByte s.cfg c := by
  cases r <;> rfl

/-- The protocol looks at no diagnostic: the same bytes make it answer alike (44_io.md R179). -/
theorem readFrom_diagBlind (bs : List Byte) (r : Reader) : DiagBlind ni mf (readFrom bs r) := by
  induction bs generalizing r with
  | nil =>
    intro s t d answer
    rw [readFrom_nil, inputExhausted] at answer
    split at answer
    · next ended =>
      obtain rfl := Host.Outcome.next.inj answer
      exact ⟨_, if_pos ended⟩
    · next notEnded =>
      obtain rfl := Host.Outcome.next.inj answer
      exact ⟨d, if_neg notEnded⟩
  | cons c cs ih =>
    intro s t d answer
    have same := onByte_withDiag (ni := ni) (mf := mf) r c s d
    cases move : r.onByte s.cfg c with
    | goto r' =>
      rw [readFrom_goto move] at answer
      rw [readFrom_goto (same.trans move)]
      exact ih r' (takeByte s) t d answer
    | accept n =>
      rw [readFrom_accept move] at answer
      obtain rfl := Host.Outcome.next.inj answer
      exact ⟨d, readFrom_accept (same.trans move)⟩
    | reject k =>
      rw [readFrom_reject move] at answer
      rw [readFrom_reject (same.trans move)]
      exact ih .lead _ t _ answer

/-- Every instruction looks at no diagnostic. -/
theorem exec_diagBlind (i : Instr) : DiagBlind ni mf (exec i) := by
  cases i with
  | hlt opd =>
    intro s t d answer
    obtain rfl := Host.Outcome.next.inj ((exec_hlt opd s).symm.trans answer)
    exact ⟨d, rfl⟩
  | add a => exact readOperand_diagBlind (value := fun v t => add32 t.acc v) fun _ _ _ => rfl
  | sub a => exact readOperand_diagBlind (value := fun v t => sub32 t.acc v) fun _ _ _ => rfl
  | lda a => exact readOperand_diagBlind (value := fun v _ => v) fun _ _ _ => rfl
  | sta a => exact writeOperand_diagBlind (.sta a) a
  | bra a => exact branchIf_diagBlind (fun _ => true) a
  | brz a => exact branchIf_diagBlind isZero a
  | brp a => exact branchIf_diagBlind isNonNegative a
  | inp => exact fun s t d answer => readFrom_diagBlind s.inputLeft .lead (startAttempt s) t d answer
  | out =>
    intro s t d answer
    obtain rfl := Host.Outcome.next.inj ((exec_out s).symm.trans answer)
    exact ⟨d, rfl⟩
  | otc =>
    intro s t d answer
    obtain rfl := Host.Outcome.next.inj ((exec_otc s).symm.trans answer)
    exact ⟨d, rfl⟩

/-- A fatal condition is one whatever the diagnostics. -/
theorem FatalAt.withDiag {s : State} {cause : Cause} {info : Option Nat} {origin : Origin}
    (fatal : FatalAt s cause info origin) (d : List Byte) : FatalAt (withDiag ni mf d s) cause info origin := by
  cases fatal with
  | fetch unfetched => exact .fetch (s := Machine.withDiag ni mf d s) unfetched
  | opcode fetched decoded => exact .opcode fetched decoded
  | selector fetched decoded => exact .selector fetched decoded
  | operand fetched decoded accesses outside => exact .operand fetched decoded accesses outside

/-- What is read does not depend on the diagnostics. -/
theorem Reads.withDiag {s s₀ : State} {r : Reader} (reads : Reads s r s₀) (d : List Byte) :
    Reads (withDiag ni mf d s) r (withDiag ni mf d s₀) := by
  cases reads with
  | resumed waits start => exact .resumed waits (congrArg (Machine.withDiag ni mf d) start)
  | started idle fetched lead start => exact .started idle fetched lead (congrArg (Machine.withDiag ni mf d) start)

end

/-- Every step looks at no diagnostic. -/
theorem step_diagBlind (ni mf : List Byte) : DiagBlind ni mf step := by
  intro s t d stepped
  obtain ⟨running, kind⟩ := step_kind stepped
  cases kind with
  | reads r s₀ reads answer =>
    obtain ⟨d', answer'⟩ := readFrom_diagBlind (ni := ni) (mf := mf) s.inputLeft r s₀ t d answer
    exact ⟨d', ((reads.withDiag d).step running).trans answer'⟩
  | fatal idle cause info origin fatal h =>
    subst h
    exact ⟨_, (fatal.withDiag d).step running idle⟩
  | completes idle w i fetched decoded =>
    obtain ⟨d', answer'⟩ := exec_diagBlind (ni := ni) (mf := mf) i s t d
      ((step_eq_exec running idle fetched decoded).symm.trans stepped)
    exact ⟨d', (step_eq_exec (s := withDiag ni mf d s) running idle fetched decoded).trans answer'⟩

/-- Settles O34: a step looks at no diagnostic, and keeps the parameters. -/
theorem diagnosticsInfluenceNothing : Obligations.DiagnosticsInfluenceNothing := by
  intro s t ni mf d stepped
  obtain ⟨d', answer⟩ := step_diagBlind ni mf s t d stepped
  obtain ⟨cfg, -⟩ := stepsKeepParametersAndInput s t stepped
  exact ⟨_, answer, by rw [← cfg]; rfl⟩

end Sys2Proof.Machine
end

section
/-! The invariant of the machine (10_state.md R22 to R29; 20_memory.md R50; 60_exceptions.md R202): reset establishes
it, and every step and the host keep it. -/

namespace Sys2Proof.Machine

/-! ### The parts of the invariant -/

/-- A write in range keeps memory canonical and in bounds. -/
theorem memOk_write {s : State} (ok : s.MemOk) {a : Nat} (inRange : a < s.cfg.memLen.val) (v : Word) :
    ({ s with mem := s.mem.write a v } : State).MemOk := by
  obtain ⟨canonical, bound⟩ := ok
  refine ⟨write_wf canonical a v, fun c written => ?_⟩
  obtain listed | isNew := write_addr written
  · exact bound c listed
  · exact isNew ▸ inRange

theorem memOk_of_eq {s t : State} (ok : s.MemOk) (mem : t.mem = s.mem) (cfg : t.cfg = s.cfg) : t.MemOk := by
  rw [State.MemOk, mem, cfg]
  exact ok

theorem fetch_of_eq {s t : State} (mem : t.mem = s.mem) (cfg : t.cfg = s.cfg) (ip : t.ip = s.ip) :
    fetch t = fetch s := by
  rw [fetch, fetch, memRead, memRead, mem, cfg, ip]

theorem ip_lt_of_fetch {s : State} {w : Word} (fetched : fetch s = some w) : s.ip.toNat < s.cfg.memLen.val :=
  (wordAt_eq_some_iff.1 fetched).1

/-- From an instruction in memory, the next word's address is at most 2^27 (10_state.md R22; log 5). -/
theorem ipOk_succ {s : State} {w : Word} (fetched : fetch s = some w) : (s.ip + 1).toNat ≤ 2 ^ 27 := by
  have inRange := ip_lt_of_fetch fetched
  have largest := s.cfg.memLen.isLt
  rw [BitVec.toNat_add, show (1 : Word).toNat = 1 from rfl]
  omega

/-- A branch's target is below 2^27 (43_branch.md R140). -/
theorem ipOk_branchTarget (a : Operand) : (branchTarget a).toNat ≤ 2 ^ 27 := by
  rw [branchTarget_toNat]
  exact Nat.le_of_lt a.isLt

theorem faultOk_of_none {s : State} (fault : s.fault = none) (notFaulted : s.run ≠ .faulted) : s.FaultOk := by
  rw [State.FaultOk, fault]
  exact notFaulted

theorem faultOk_of_some {s : State} {f : FaultRecord} (fault : s.fault = some f) (faulted : s.run = .faulted)
    (isTrue : f.TrueOf s) : s.FaultOk := by
  rw [State.FaultOk, fault]
  exact ⟨faulted, isTrue⟩

/-- While RUNNING there is no fault record (10_state.md R25). -/
theorem fault_eq_none_of_running {s : State} (ok : s.FaultOk) (running : s.run = .running) : s.fault = none := by
  cases recorded : s.fault with
  | none => rfl
  | some f =>
    rw [State.FaultOk, recorded] at ok
    cases running.symm.trans ok.1

theorem readerOk_of_none {s : State} (idle : s.reader = none) : s.ReaderOk := fun waits => by
  rw [idle] at waits
  cases waits

/-- The record of a fatal condition is true of the state it leaves (60_exceptions.md R202, R203). -/
theorem FatalAt.trueOf {s : State} {cause : Cause} {info : Option Nat} {origin : Origin}
    (fatal : FatalAt s cause info origin) :
    FaultRecord.TrueOf { cause := cause, info := info, ip := s.ip, stage := origin.stage, word := origin.word }
      (raiseFatal cause info origin s) := by
  refine ⟨rfl, ?_⟩
  cases fatal with
  | fetch unfetched =>
    exact ⟨rfl, rfl, rfl,
      Nat.not_lt.1 fun inRange => Option.some_ne_none _ ((wordAt_of_lt inRange).symm.trans unfetched)⟩
  | opcode fetched decoded => exact ⟨_, rfl, fetched, _, decoded, rfl⟩
  | selector fetched decoded => exact ⟨_, rfl, fetched, _, decoded, rfl⟩
  | operand fetched decoded accesses outside =>
    obtain ⟨reads, rfl⟩ | ⟨rfl, rfl⟩ := accesses
    · exact ⟨_, rfl, fetched, _, _, decoded, reads, rfl, outside⟩
    · exact ⟨_, rfl, fetched, _, decoded, rfl, outside⟩

/-! ### Every step keeps it -/

theorem Reads.fetched {s s₀ : State} {r : Reader} (reads : Reads s r s₀) (ok : s.ReaderOk) :
    fetch s = some inpWord := by
  cases reads with
  | resumed waits => exact (ok (by simp [waits])).2
  | started _ fetched => exact fetched

theorem inv_of_reads {s s₀ t : State} {r : Reader} (inv : s.Inv) (running : s.run = .running) (reads : Reads s r s₀)
    (answer : readFrom s.inputLeft r s₀ = .next t) : t.Inv := by
  have start := reads.frame
  have fetched : fetch s = some inpWord := reads.fetched inv.readerOk
  have noFault : s₀.fault = none := start.fault.trans (fault_eq_none_of_running inv.faultOk running)
  have running₀ : s₀.run = .running := start.run.trans running
  obtain ⟨frame, ends⟩ := readFrom_frame_end answer
  have mem := frame.mem.trans start.mem
  have cfg := frame.cfg.trans start.cfg
  have memOk : t.MemOk := memOk_of_eq inv.memOk mem cfg
  have inputOk : t.InputOk := inputOk_of_frame inv.inputOk start frame
  cases ends with
  | value ip run fault reader =>
    refine ⟨memOk, ?_, inputOk, readerOk_of_none (reader.trans start.reader), faultOk_of_none (fault.trans noFault) ?_⟩
    · rw [State.IpOk, ip, start.ip]
      exact ipOk_succ fetched
    · rw [run, running₀]
      decide
  | eof ended acc ip run fault reader inPos =>
    have sameIp := ip.trans start.ip
    have fetched' : fetch t = some inpWord := (fetch_of_eq mem cfg sameIp).trans fetched
    have consumed : t.inPos = t.input.bytes.length := by
      rw [inPos, start.inPos, inPos_add_inputLeft inv.inputOk, frame.input, start.input]
    refine ⟨memOk, ?_, inputOk, readerOk_of_none (reader.trans start.reader), faultOk_of_some fault run
      ⟨ip.symm, inpWord, rfl, fetched', rfl, rfl, frame.input ▸ ended, consumed⟩⟩
    rw [State.IpOk, sameIp]
    exact inv.ipOk
  | wait _ acc ip run fault reader =>
    have sameIp := ip.trans start.ip
    have fetched' : fetch t = some inpWord := (fetch_of_eq mem cfg sameIp).trans fetched
    have running' := run.trans running₀
    refine ⟨memOk, ?_, inputOk, fun _ => ⟨running', fetched'⟩, faultOk_of_none (fault.trans noFault) ?_⟩
    · rw [State.IpOk, sameIp]
      exact inv.ipOk
    · rw [running']
      decide

theorem inv_of_fatal {s : State} {cause : Cause} {info : Option Nat} {origin : Origin} (inv : s.Inv)
    (idle : s.reader = none) (fatal : FatalAt s cause info origin) : (raiseFatal cause info origin s).Inv :=
  ⟨inv.memOk, inv.ipOk, inv.inputOk, readerOk_of_none idle, faultOk_of_some rfl rfl fatal.trueOf⟩

theorem inv_of_completes {s t : State} {w : Word} {i : Instr} (inv : s.Inv) (running : s.run = .running)
    (idle : s.reader = none) (fetched : fetch s = some w) (done : Completes i s t) : t.Inv := by
  obtain ⟨fault, inPos, -, reader, input, cfg⟩ := done.frame
  refine ⟨?mem, ?ip, ?input, readerOk_of_none (reader.trans idle),
    faultOk_of_none (fault.trans (fault_eq_none_of_running inv.faultOk running)) (done.run_ne_faulted running)⟩
  case mem =>
    obtain kept | ⟨a, -, inRange, written⟩ := done.mem
    · exact memOk_of_eq inv.memOk kept cfg
    · exact memOk_of_eq (memOk_write inv.memOk inRange s.acc) written cfg
  case ip =>
    rw [State.IpOk]
    obtain ip | ip | ⟨a, ip⟩ := done.ip
    · rw [ip]
      exact inv.ipOk
    · rw [ip]
      exact ipOk_succ fetched
    · rw [ip]
      exact ipOk_branchTarget a
  case input =>
    rw [State.InputOk, inPos, input]
    exact inv.inputOk

/-- Settles O56, by the three kinds of step. -/
theorem stepKeepsTheInvariant : Obligations.StepKeepsTheInvariant := by
  intro s t inv stepped
  obtain ⟨running, kind⟩ := step_kind stepped
  cases kind with
  | reads r s₀ reads answer => exact inv_of_reads inv running reads answer
  | fatal idle cause info origin fatal h => exact h ▸ inv_of_fatal inv idle fatal
  | completes idle w i fetched decoded done => exact inv_of_completes inv running idle fetched done

/-! ### Reset and the host -/

theorem inv_resetWith (cfg : Config) (image : List Word) (input : InputPort) :
    (State.resetWith cfg image input).Inv where
  memOk := ⟨ofImage_wf image _, fun _ => ofImage_addr⟩
  ipOk := Nat.zero_le _
  inputOk := Nat.zero_le _
  readerOk := readerOk_of_none rfl
  faultOk := faultOk_of_none rfl nofun

theorem reset_eq_resetWith : State.reset = State.resetWith Config.default [] { bytes := [], ended := false } := rfl

/-- Settles O57: the image is placed in canonical form, and every other register is at its reset value. -/
theorem resetEstablishesTheInvariant : Obligations.ResetEstablishesTheInvariant :=
  ⟨inv_resetWith, reset_eq_resetWith ▸ inv_resetWith _ _ _, reset_eq_resetWith⟩

/-- Settles O40: reset's registers, and the first word of the padded image. -/
theorem resetState : Obligations.ResetState := by
  rintro cfg image input s rfl
  refine ⟨⟨rfl, rfl, rfl, rfl, rfl, rfl, rfl, rfl, rfl, rfl, rfl⟩, fun noMemory => ?_, fun i someMemory decoded => ?_⟩
  · exact step_eq_fetchRange rfl rfl (Nat.le_of_eq noMemory)
  · have first : (State.resetWith cfg image input).wordAt 0 = some (image.headD 0) := by
      rw [(resetMemoryIsPaddedImage cfg image input 0).1 someMemory]
      cases image <;> rfl
    exact step_eq_exec rfl rfl first decoded

/-- An input port that has ended wherever it had, with as many bytes, leaves a true record true. -/
theorem trueOf_withInput {s : State} {p : InputPort} {f : FaultRecord}
    (extends_ : s.input.ended = true → p.ended = true ∧ p.bytes.length = s.input.bytes.length) (isTrue : f.TrueOf s) :
    f.TrueOf (withInput p s) := by
  obtain ⟨cause, info, ip, stage, word⟩ := f
  obtain ⟨sameIp, record⟩ := isTrue
  refine ⟨sameIp, ?_⟩
  cases stage with
  | fetch => exact record
  | execute =>
    obtain ⟨w, isWord, fetched, row⟩ := record
    refine ⟨w, isWord, fetched, ?_⟩
    cases cause with
    | inputEof =>
      obtain ⟨isInp, noInfo, ended, consumed⟩ := row
      obtain ⟨ended', length⟩ := extends_ ended
      exact ⟨isInp, noInfo, ended', consumed.trans length.symm⟩
    | _ => exact row

/-- An input port that holds what was consumed, and has ended wherever it had, keeps the invariant. -/
theorem inv_withInput {s : State} {p : InputPort} (inv : s.Inv) (holds : s.inPos ≤ p.bytes.length)
    (extends_ : s.input.ended = true → p.ended = true ∧ p.bytes.length = s.input.bytes.length) :
    (withInput p s).Inv := by
  refine ⟨inv.memOk, inv.ipOk, holds, inv.readerOk, ?_⟩
  have ok := inv.faultOk
  cases recorded : s.fault with
  | none =>
    rw [State.FaultOk, recorded] at ok
    exact faultOk_of_none recorded ok
  | some f =>
    rw [State.FaultOk, recorded] at ok
    exact faultOk_of_some recorded ok.1 (trueOf_withInput extends_ ok.2)

theorem hostSupply_of_ended {s : State} (ended : s.input.ended = true) (bs : List Byte) : s.hostSupply bs = s :=
  if_pos ended

/-- Supplying bytes keeps the invariant: a record of INPUT_EOF stands only where the input has ended. -/
theorem inv_hostSupply {s : State} (inv : s.Inv) (bs : List Byte) : (s.hostSupply bs).Inv := by
  cases ended : s.input.ended with
  | true =>
    rw [hostSupply_of_ended ended]
    exact inv
  | false =>
    rw [hostSupply_eq_withInput ended]
    refine inv_withInput inv ?_ fun isEnded => absurd (ended.symm.trans isEnded) Bool.false_ne_true
    exact Nat.le_trans inv.inputOk (List.length_append ▸ Nat.le_add_right _ _)

/-- Settles O58: each of the host's actions is another input port. -/
theorem hostActsOnTheInputPortOnly : Obligations.HostActsOnTheInputPortOnly := by
  intro s bs
  refine ⟨?port, rfl, fun ended => hostSupply_of_ended ended bs, fun notEnded ok => ?left,
    fun inv => ⟨inv_hostSupply inv bs, inv_withInput inv inv.inputOk fun _ => ⟨rfl, rfl⟩⟩⟩
  case port =>
    unfold State.hostSupply
    split <;> rfl
  case left =>
    rw [hostSupply_eq_withInput notEnded]
    exact List.drop_append_of_le_length ok

/-! ### The model's load -/

theorem decode_of_decodeTableWord {nbits w : Nat} {i : Instr} (decoded : decodeTableWord nbits w = some i) :
    decode (tableWord nbits w) = .instr i := by
  unfold decodeTableWord at decoded
  split at decoded
  · next isInstr => rw [isInstr, Option.some.inj decoded]
  · cases decoded
  · cases decoded

/-- A placed word is the word at `ip`, where `ip` names a word and where it is set to 0 (log 12). -/
theorem placeInstruction_spec {s : State} (canonical : s.mem.wf) (w : Word) :
    (placeInstruction w s).run = .running ∧ (placeInstruction w s).reader = none ∧
      (placeInstruction w s).wordAt (placeInstruction w s).ip.toNat = some w := by
  unfold placeInstruction
  split
  · next inRange => exact ⟨rfl, rfl, wordAt_write_same canonical _ w inRange⟩
  · have inRange : 0 < (max 1 s.cfg.memLen).val := Fin.pos_iff_ne_zero.2 (ne_of_gt (lt_max_of_lt_left (by decide)))
    exact ⟨rfl, rfl, wordAt_write_same (s := { s with cfg := { s.cfg with memLen := max 1 s.cfg.memLen } })
      canonical 0 w inRange⟩

/-- Settles O59: the placed word is the one the step fetches. -/
theorem placedWordIsRun : Obligations.PlacedWordIsRun := by
  intro s w i decoded canonical
  obtain ⟨running, idle, fetched⟩ := placeInstruction_spec canonical (tableWord 32 w)
  exact step_eq_exec running idle fetched (decode_of_decodeTableWord decoded)

end Sys2Proof.Machine
end
